-- ==== Sys2Proof/Word.lean ====
section
/-! DEFINITION. The word types of the engine and the shape of its transient integers.

Stored registers are bit vectors of the widths of `10_state.md` R20. What a command computes on the
way is an exact unsigned integer (`00_scope.md` R10), so a transient limb vector holds `Nat`s. -/

namespace Sys2Proof

/-- A byte (R12). -/
abbrev Byte := BitVec 8

/-- A host register, and a command word (R9, R81). -/
abbrev Word := BitVec 32

/-- A stored limb of `h` or of `r` (R20): `LIMBW = 26` bits. -/
abbrev Limb := BitVec 26

/-- The width of `s`, of `tag` and of the clamped multiplier (R20). -/
abbrev Wide := BitVec 128

/-- A limb vector of R13: five unsigned integers, not necessarily normalised. The transient vectors
`m`, `a`, `d`, `y` and `g` of R35 have this type. -/
structure Machine.LimbVec where
  x0 : Nat
  x1 : Nat
  x2 : Nat
  x3 : Nat
  x4 : Nat
  deriving DecidableEq, Repr

end Sys2Proof
end

