-- ==== Sys2Proof/Syntax.lean ====
section
/-! DEFINITION. The five instructions of `30_encoding.md` R83, the rows of `opcode_table.json`. -/

namespace Sys2Proof

/-- A command of the engine. An operand is the field of the command word that carries it (R82): `LEN` whole
for `INIT`, its low four bits where the table fixes the high four to zero. The bulk operands stand in the
staging registers and are no part of the word. -/
inductive Instr where
  /-- `INIT klen`: accept the staged key of the declared length `klen` (`40_init.md` R110, R116). -/
  | init (klen : BitVec 8)
  /-- `ABSORB`: absorb the full block staged in BLOCK (`41_absorb.md` R144). -/
  | absorb
  /-- `ABSORBP len`: absorb a final partial block of `len` bytes (`41_absorb.md` R145). -/
  | absorbp (len : BitVec 4)
  /-- `FINAL`: compute the tag of what was absorbed (`42_finalize.md` R176). -/
  | final
  /-- `FINALP len`: compute the tag as if a final partial block of `len` bytes followed (`42_finalize.md` R177). -/
  | finalp (len : BitVec 4)
  deriving DecidableEq, Repr

end Sys2Proof
end

