-- ==== Sys2Proof/WellFormed.lean ====
section
/-! DEFINITION. Which terms of `Instr` stand for a command word. -/

namespace Sys2Proof

/-- The check of `30_encoding.md` R83: a partial block holds 1 to 15 bytes; `INIT klen` is legal for every
`klen` from 0 to 255 (R84). -/
def Instr.wellFormed : Instr → Bool
  | .init _ => true
  | .absorb => true
  | .absorbp len => len != 0#4
  | .final => true
  | .finalp len => len != 0#4

/-- The check as a proposition. -/
abbrev Instr.WellFormed (i : Instr) : Prop := i.wellFormed = true

end Sys2Proof
end

