-- ==== Sys2Proof/Decode.lean ====
section
/-! DEFINITION. The command encoding of `30_encoding.md`: the five fields of the one format `CMD32`, the
decoder, total on the 2^32 words, and the encoder. -/

namespace Sys2Proof

/-- `OP = w[3:0]` (R81). -/
def fieldOP (w : Word) : BitVec 4 := w.extractLsb' 0 4

/-- `FP = w[4]`, the source's `isFinalPartial` (R81). -/
def fieldFP (w : Word) : BitVec 1 := w.extractLsb' 4 1

/-- `RSV0 = w[7:5]`, reserved (R81). -/
def fieldRSV0 (w : Word) : BitVec 3 := w.extractLsb' 5 3

/-- `LEN = w[15:8]`, an unsigned byte count (R81). -/
def fieldLEN (w : Word) : BitVec 8 := w.extractLsb' 8 8

/-- `RSV1 = w[31:16]`, reserved (R81). -/
def fieldRSV1 (w : Word) : BitVec 16 := w.extractLsb' 16 16

/-- Why a word is illegal: the seven classes of R86, (a) to (g). The classes overlap; the decoder names the
first that applies, and the engine answers all of them alike (log entry 9). -/
inductive IllegalWord where
  /-- (a) `OP` is none of 1, 2, 3. -/
  | reservedOp
  /-- (b) `RSV0` or `RSV1` is not zero. -/
  | reservedBits
  /-- (c) `OP = 1` with `FP = 1`. -/
  | initFinalPartial
  /-- (d) `OP = 2`, `FP = 0`, `LEN` not 16. -/
  | absorbLength
  /-- (e) `OP = 2`, `FP = 1`, `LEN` not 1 to 15. -/
  | absorbpLength
  /-- (f) `OP = 3`, `FP = 0`, `LEN` not 0. -/
  | finalLength
  /-- (g) `OP = 3`, `FP = 1`, `LEN` not 1 to 15. -/
  | finalpLength
  deriving DecidableEq, Repr

/-- The `LEN` of a partial block: 1 to 15 (R85), kept in the four bits the table leaves free. -/
def partialLength (len : BitVec 8) : Option (BitVec 4) :=
  if 1#8 ≤ len ∧ len ≤ 15#8 then some (len.setWidth 4) else none

/-- Decoding one command word (R83, R86). It looks at the word alone (R87). -/
def decode (w : Word) : Except IllegalWord Instr :=
  if fieldOP w ≠ 1#4 ∧ fieldOP w ≠ 2#4 ∧ fieldOP w ≠ 3#4 then .error .reservedOp
  else if fieldRSV0 w ≠ 0#3 ∨ fieldRSV1 w ≠ 0#16 then .error .reservedBits
  else if fieldOP w = 1#4 then
    if fieldFP w = 1#1 then .error .initFinalPartial else .ok (.init (fieldLEN w))
  else if fieldOP w = 2#4 then
    if fieldFP w = 0#1 then
      if fieldLEN w = 16#8 then .ok .absorb else .error .absorbLength
    else
      match partialLength (fieldLEN w) with
      | some len => .ok (.absorbp len)
      | none => .error .absorbpLength
  else
    if fieldFP w = 0#1 then
      if fieldLEN w = 0#8 then .ok .final else .error .finalLength
    else
      match partialLength (fieldLEN w) with
      | some len => .ok (.finalp len)
      | none => .error .finalpLength

/-- The command word of an instruction, from the column "word" of R83. -/
def encode : Instr → Word
  | .init klen => BitVec.ofNat 32 (0x00000001 + klen.toNat * 0x100)
  | .absorb => 0x00001002#32
  | .absorbp len => BitVec.ofNat 32 (0x00000012 + len.toNat * 0x100)
  | .final => 0x00000003#32
  | .finalp len => BitVec.ofNat 32 (0x00000013 + len.toNat * 0x100)

/-- The host's view of the decoder: a command is one 32-bit word, written to CMD whole (R80, R81), so its
bits are numbered as `opcode_table.json` numbers them and no byte order enters. -/
def decodeTableWord (nbits w : Nat) : Option Instr :=
  match decode (BitVec.ofNat 32 (w % 2 ^ nbits)) with
  | .ok i => some i
  | .error _ => none

end Sys2Proof
end

