-- ==== Sys2Proof/Config.lean ====
section
/-! DEFINITION. The constants of the engine (`00_scope.md` R7 to R9) and its one open parameter a model
can use, the address of its register window. -/

namespace Sys2Proof.Config

/-- `KeySize` (R7): the bytes of a key. -/
abbrev keySize : Nat := 32

/-- `BlockSize` (R7): the bytes of a full block. -/
abbrev blockSize : Nat := 16

/-- `Size` (R7): the bytes of a tag. -/
abbrev tagSize : Nat := 16

/-- The prime `p = 2^130 - 5` (R8). -/
abbrev modulus : Nat := 2 ^ 130 - 5

/-- The clamp as one mask on the 128-bit `r` half of the key (`40_init.md` R112). -/
abbrev clampMask : Wide := 0x0ffffffc0ffffffc0ffffffc0fffffff#128

/-- The host register space is 128 bytes (R9, `20_memory.md` R51). -/
abbrev windowSize : Nat := 128

/-- `BASE` in units of the window (R9; D4: any address aligned to 128 bytes). OPEN in the spec, so it has
no value here: no instruction and no step reads it (log entry 11). -/
opaque baseBlock : Nat

/-- `BASE`, the address of offset 0 in the host's address map (R9, D4). -/
def base : Nat := windowSize * baseBlock

end Sys2Proof.Config
end

