-- ==== Sys2Proof/Machine/State.lean ====
section
/-! DEFINITION. The state of one engine (`10_state.md` R20), the port at which its host's accesses arrive,
and the reasons a step can stop. -/

namespace Sys2Proof.Machine

/-- The sequencer state, with the four values of R22. -/
inductive Phase where
  /-- 0: no key accepted since reset or since the last failed INIT. -/
  | uninitialized
  /-- 1: a key was accepted and no block absorbed. -/
  | initialized
  /-- 2: a block was absorbed since the last INIT and since the last FINAL or FINALP. -/
  | absorbing
  /-- 3: the last successful command was FINAL or FINALP. -/
  | finalized
  deriving DecidableEq, Repr

/-- The response of the most recent command, with the four codes of R27 and `60_exceptions.md` R230. -/
inductive Response where
  /-- 0 -/
  | ok
  /-- 1 -/
  | invalidKeyLength
  /-- 2 -/
  | notInitialized
  /-- 3 -/
  | illegalCommand
  deriving DecidableEq, Repr

/-- Five stored limbs: `h[0..4]` or `r[0..4]` (R20). Normalised by its type (R13). -/
structure LimbRegs where
  l0 : Limb
  l1 : Limb
  l2 : Limb
  l3 : Limb
  l4 : Limb
  deriving DecidableEq, Repr

/-- Five zero limbs. -/
def LimbRegs.zero : LimbRegs := ⟨0#26, 0#26, 0#26, 0#26, 0#26⟩

/-- The block staging registers `BLOCK[0..3]` (R29). -/
structure BlockRegs where
  w0 : Word
  w1 : Word
  w2 : Word
  w3 : Word
  deriving DecidableEq, Repr

/-- The key staging registers `KEY[0..7]` (R28). -/
structure KeyRegs where
  w0 : Word
  w1 : Word
  w2 : Word
  w3 : Word
  w4 : Word
  w5 : Word
  w6 : Word
  w7 : Word
  deriving DecidableEq, Repr

/-- The registers of the window, by name (`20_memory.md` R51). CMD, STATUS and TAG are views, not storage
(R30 to R32). -/
inductive Reg where
  | cmd
  | status
  | block (i : Fin 4)
  | key (i : Fin 8)
  | tag (i : Fin 4)
  deriving DecidableEq, Repr

/-- What arrives at the engine from outside, one at a time: an access of its register window at a byte
offset, of a size in bytes (`20_memory.md` R50, R55), or an assertion of its reset input
(`70_reset_and_hazards.md` R260). An access of another size than 4 faults whatever it carries, so a write
carries one 32-bit value. -/
inductive HostEvent where
  | read (size off : Nat)
  | write (size off : Nat) (v : Word)
  | reset
  deriving DecidableEq, Repr

/-- What the port answered to the last access performed. -/
inductive HostReply where
  /-- Nothing was answered since reset. -/
  | silent
  /-- A read returned a value. -/
  | value (v : Word)
  /-- A write was accepted (a write to STATUS or TAG is accepted and ignored, R58). -/
  | accepted
  /-- The access raised `HostAccessFault` (R56), a bus response. -/
  | hostAccessFault
  deriving DecidableEq, Repr

/-- The machine: the eight elements of R20, under the spec's names, and the two fields of the model's own
at the host interface, `port` and `reply` (log entries 1 and 3). -/
structure State where
  phase : Phase
  err : Response
  r : LimbRegs
  s : Wide
  h : LimbRegs
  tag : Wide
  key : KeyRegs
  block : BlockRegs
  /-- The model's own: what the host still sends, first first (R59: performed in the order received). -/
  port : List HostEvent
  /-- The model's own: the port's last answer. -/
  reply : HostReply
  deriving DecidableEq, Repr

/-- The reset values of R38: every element is 0 and `phase` is Uninitialized. The port holds nothing and
has answered nothing (log entries 1 and 3). -/
def State.reset : State where
  phase := .uninitialized
  err := .ok
  r := .zero
  s := 0#128
  h := .zero
  tag := 0#128
  key := ⟨0#32, 0#32, 0#32, 0#32, 0#32, 0#32, 0#32, 0#32⟩
  block := ⟨0#32, 0#32, 0#32, 0#32⟩
  port := []
  reply := .silent

/-- Why an access is malformed: the four grounds of `20_memory.md` R56. -/
inductive AccessError where
  /-- A size other than 4 bytes. -/
  | wrongSize
  /-- An offset that is not a multiple of 4. -/
  | misaligned
  /-- 0x08, 0x0C or 0x50 to 0x7C. -/
  | reservedOffset
  /-- An offset outside 0x00 to 0x7F. -/
  | outsideWindow
  deriving DecidableEq, Repr

/-- The reasons a step stops with a fault. -/
inductive Fault where
  /-- `HostAccessFault` (R56). Raised by `performEvent`, for a malformed access alone; no command raises it. `left` is
  the machine as the access leaves it: the engine unchanged, the port's answer the fault. SAFE: the run stops where
  the hardware would perform the host's next access, as R56 asks of a model (log entry 4). -/
  | hostAccessFault (why : AccessError) (left : State)
  deriving DecidableEq, Repr

/-- The reasons a step, or a submission of an access, is refused. -/
inductive Refusal where
  /-- An instruction that has no meaning yet. Raised by no arm of `exec`: all five have one. SAFE. -/
  | notModelled (mnemonic : String)
  /-- An address outside `BASE .. BASE+0x7F`, which is not the engine's but the platform's
  (`93_implementation_defined.md` X5). Raised by `submitAt` alone. SAFE. -/
  | outsideWindow
  deriving DecidableEq, Repr

end Sys2Proof.Machine
end

