-- ==== Sys2Proof/Machine/Operands.lean ====
section
/-! DEFINITION. What a command reads: byte strings and words as little-endian integers, the two halves of
the key, the block integer, and the limb representation. -/

namespace Sys2Proof.Machine

/-- `LE(b)`: the little-endian integer of a byte string (`00_scope.md` R12). -/
def leValue : List Byte → Nat
  | [] => 0
  | b :: bs => b.toNat + 2 ^ 8 * leValue bs

/-- `LEbytes_L(v)`: the `L` bytes of `v`, least significant first (R12). -/
def leBytes : Nat → Nat → List Byte
  | 0, _ => []
  | L + 1, v => BitVec.ofNat 8 v :: leBytes L (v / 2 ^ 8)

/-- Four words as one integer, the first least significant (`20_memory.md` R54). -/
def wordsValue (w0 w1 w2 w3 : Word) : Nat :=
  w0.toNat + w1.toNat * 2 ^ 32 + w2.toNat * 2 ^ 64 + w3.toNat * 2 ^ 96

/-- `BLOCK[i]`. -/
def BlockRegs.get (b : BlockRegs) (i : Fin 4) : Word :=
  match i with
  | 0 => b.w0
  | 1 => b.w1
  | 2 => b.w2
  | 3 => b.w3

/-- `BLOCK[i] <- v`: a write replaces the whole register (R29). -/
def BlockRegs.set (b : BlockRegs) (i : Fin 4) (v : Word) : BlockRegs :=
  match i with
  | 0 => { b with w0 := v }
  | 1 => { b with w1 := v }
  | 2 => { b with w2 := v }
  | 3 => { b with w3 := v }

/-- `KEY[i]`. -/
def KeyRegs.get (k : KeyRegs) (i : Fin 8) : Word :=
  match i with
  | 0 => k.w0
  | 1 => k.w1
  | 2 => k.w2
  | 3 => k.w3
  | 4 => k.w4
  | 5 => k.w5
  | 6 => k.w6
  | 7 => k.w7

/-- `KEY[i] <- v`: a write replaces the whole register (R28). -/
def KeyRegs.set (k : KeyRegs) (i : Fin 8) (v : Word) : KeyRegs :=
  match i with
  | 0 => { k with w0 := v }
  | 1 => { k with w1 := v }
  | 2 => { k with w2 := v }
  | 3 => { k with w3 := v }
  | 4 => { k with w4 := v }
  | 5 => { k with w5 := v }
  | 6 => { k with w6 := v }
  | 7 => { k with w7 := v }

/-- `rraw = LE(key[0..15])` (`40_init.md` R111). -/
def KeyRegs.rHalf (k : KeyRegs) : Nat := wordsValue k.w0 k.w1 k.w2 k.w3

/-- `LE(key[16..31])` (R111, R114). -/
def KeyRegs.sHalf (k : KeyRegs) : Nat := wordsValue k.w4 k.w5 k.w6 k.w7

/-- `R`: the `r` half with its 22 fixed bits cleared (R112). -/
def KeyRegs.clamped (k : KeyRegs) : Wide := BitVec.ofNat 128 k.rHalf &&& Config.clampMask

/-- `B`: the staged block as an integer (R54). -/
def BlockRegs.value (b : BlockRegs) : Nat := wordsValue b.w0 b.w1 b.w2 b.w3

/-- The block integer of a full block: bit 128 is the marker (`41_absorb.md` R130). -/
def BlockRegs.fullInteger (b : BlockRegs) : Nat := b.value + 2 ^ 128

/-- The block integer of a block of `len` data bytes: the bytes at `len` and above are ignored and the
marker follows the data (R131, R132). -/
def BlockRegs.partialInteger (b : BlockRegs) (len : Nat) : Nat := b.value % 2 ^ (8 * len) + 2 ^ (8 * len)

/-- `V(x)`, the value of a limb vector (`00_scope.md` R13). -/
def LimbVec.value (x : LimbVec) : Nat :=
  x.x0 + x.x1 * 2 ^ 26 + x.x2 * 2 ^ 52 + x.x3 * 2 ^ 78 + x.x4 * 2 ^ 104

/-- `limbs(v)`, the limb split of an integer (R13). -/
def limbs (v : Nat) : LimbVec where
  x0 := v % 2 ^ 26
  x1 := v / 2 ^ 26 % 2 ^ 26
  x2 := v / 2 ^ 52 % 2 ^ 26
  x3 := v / 2 ^ 78 % 2 ^ 26
  x4 := v / 2 ^ 104

/-- The integers that five stored limbs hold. -/
def LimbRegs.toVec (x : LimbRegs) : LimbVec := ⟨x.l0.toNat, x.l1.toNat, x.l2.toNat, x.l3.toNat, x.l4.toNat⟩

/-- `V(x)` of stored limbs: `acc = V(h)`, `R = V(r)` (`10_state.md` R23, R25). -/
def LimbRegs.value (x : LimbRegs) : Nat := x.toVec.value

/-- Storing a limb vector in five 26-bit registers. It drops nothing of a normalised one (log entry 6). -/
def LimbVec.toRegs (x : LimbVec) : LimbRegs :=
  ⟨BitVec.ofNat 26 x.x0, BitVec.ofNat 26 x.x1, BitVec.ofNat 26 x.x2, BitVec.ofNat 26 x.x3, BitVec.ofNat 26 x.x4⟩

end Sys2Proof.Machine
end

