-- ==== Sys2Proof/Machine/Multiplier.lean ====
section
/-! DEFINITION. The modular multiplier: the limb datapath of `41_absorb.md` section 3. Every value is an
exact unsigned integer; that the widths of R142 are enough is proved, not assumed (log entry 6). -/

namespace Sys2Proof.Machine

/-- Limb add (R135): no carry is propagated. -/
def limbAdd (x m : LimbVec) : LimbVec :=
  ⟨x.x0 + m.x0, x.x1 + m.x1, x.x2 + m.x2, x.x3 + m.x3, x.x4 + m.x4⟩

/-- Multiply with fold (R136): `d[k]` collects the products of weight `k`, and 5 times those of weight
`k + 5`, because `2^130` is 5 modulo `p`. -/
def mulFold (a r : LimbVec) : LimbVec where
  x0 := a.x0 * r.x0 + a.x1 * (5 * r.x4) + a.x2 * (5 * r.x3) + a.x3 * (5 * r.x2) + a.x4 * (5 * r.x1)
  x1 := a.x0 * r.x1 + a.x1 * r.x0 + a.x2 * (5 * r.x4) + a.x3 * (5 * r.x3) + a.x4 * (5 * r.x2)
  x2 := a.x0 * r.x2 + a.x1 * r.x1 + a.x2 * r.x0 + a.x3 * (5 * r.x4) + a.x4 * (5 * r.x3)
  x3 := a.x0 * r.x3 + a.x1 * r.x2 + a.x2 * r.x1 + a.x3 * r.x0 + a.x4 * (5 * r.x4)
  x4 := a.x0 * r.x4 + a.x1 * r.x3 + a.x2 * r.x2 + a.x3 * r.x1 + a.x4 * r.x0

/-- One carry chain from limb 0 to limb 4, `e = x[k] + c; y[k] = e & M26; c = e >> 26`, from the carry `c`
into limb 0: the five limbs left, and the carry out of limb 4. It is the loop of R137, of R138 (whose first
line is the iteration `k = 0` with `c = 0`) and of `42_finalize.md` R172. -/
def carryChain (c : Nat) (x : LimbVec) : LimbVec × Nat :=
  let e0 := x.x0 + c
  let e1 := x.x1 + e0 / 2 ^ 26
  let e2 := x.x2 + e1 / 2 ^ 26
  let e3 := x.x3 + e2 / 2 ^ 26
  let e4 := x.x4 + e3 / 2 ^ 26
  (⟨e0 % 2 ^ 26, e1 % 2 ^ 26, e2 % 2 ^ 26, e3 % 2 ^ 26, e4 % 2 ^ 26⟩, e4 / 2 ^ 26)

/-- A carry chain whose carry out of limb 4 re-enters limb 0 times 5: carry pass 1 (R137) and carry
pass 2 (R138). -/
def carryPass (x : LimbVec) : LimbVec :=
  let y := carryChain 0 x
  { y.1 with x0 := y.1.x0 + 5 * y.2 }

/-- Carry pass 3 (R139): one last carry, from limb 0 to limb 1. -/
def lastCarry (y : LimbVec) : LimbVec :=
  { y with x0 := y.x0 % 2 ^ 26, x1 := y.x1 + y.x0 / 2 ^ 26 }

/-- `AbsorbStep(x, n)` (R141), with the multiplier `r` it reads from the state: a pure function of
`(x, n, r)`. -/
def absorbStep (r x : LimbRegs) (n : Nat) : LimbRegs :=
  (lastCarry (carryPass (carryPass (mulFold (limbAdd x.toVec (limbs n)) r.toVec)))).toRegs

end Sys2Proof.Machine
end

