-- ==== Sys2Proof/Machine/Flags.lean ====
section
/-! DEFINITION. The engine's one flag, `err`, and the sequencer state as the host reads them. There are no
carry, zero, overflow or sign flags (`10_state.md` R27). -/

namespace Sys2Proof.Machine

/-- The numeric value of a phase (R22). -/
def Phase.code : Phase → BitVec 2
  | .uninitialized => 0#2
  | .initialized => 1#2
  | .absorbing => 2#2
  | .finalized => 3#2

/-- The numeric value of a response (R27, `60_exceptions.md` R230). -/
def Response.code : Response → BitVec 2
  | .ok => 0#2
  | .invalidKeyLength => 1#2
  | .notInitialized => 2#2
  | .illegalCommand => 3#2

/-- STATUS (R30): `phase` in bits 1..0, `err` in bits 5..4, every other bit 0. -/
def State.status (s : State) : Word := 0#26 ++ s.err.code ++ 0#2 ++ s.phase.code

/-- `TAG[i] = tag[32i+31:32i]` (R32). -/
def State.tagWord (s : State) (i : Fin 4) : Word := s.tag.extractLsb' (32 * i.val) 32

end Sys2Proof.Machine
end

