-- ==== Sys2Proof/Machine/Ops.lean ====
section
/-! DEFINITION. The shared operations: ending a command with a response, the state writes the commands are
made of, and the reads and writes of the register window. -/

namespace Sys2Proof.Machine

/-- Ending a command with a response: `err` is written and nothing else. It is the whole of taking an error:
there is no trap entry, vector, saved register, mask or mode change (`60_exceptions.md` R236, R237), so there is
also nothing to return from, and the next command overwrites `err` (R238). -/
def State.respond (e : Response) (s : State) : State := { s with err := e }

/-- The check of the four data commands: in phase Uninitialized the command answers `NotInitialized` and
changes nothing else (R234); in the others it has its effect `t`. -/
def requireKey (s t : State) : State :=
  if s.phase = .uninitialized then s.respond .notInitialized else t

/-- The effect of an illegal command word, of whatever class: `err` and nothing else (R235). -/
def execIllegal (s : State) : State := s.respond .illegalCommand

/-- The state writes of a successful INIT (`40_init.md` R110). KEY is kept (R119). -/
def State.acceptKey (s : State) : State :=
  { s with
    r := (limbs s.key.clamped.toNat).toRegs
    s := BitVec.ofNat 128 s.key.sHalf
    h := .zero
    tag := 0#128
    phase := .initialized
    err := .ok }

/-- The state writes of a refused INIT: the instance is torn down (R116). KEY and BLOCK are kept. -/
def State.refuseKey (s : State) : State :=
  { s with
    r := .zero
    s := 0#128
    h := .zero
    tag := 0#128
    phase := .uninitialized
    err := .invalidKeyLength }

/-- The state writes of an absorption whose new accumulator is `h'` (`41_absorb.md` R144, R145). -/
def State.accumulate (h' : LimbRegs) (s : State) : State :=
  { s with h := h', tag := 0#128, phase := .absorbing, err := .ok }

/-- The state writes of a finalization whose tag is `T` (`42_finalize.md` R176, R177): `h`, `r` and `s` are
not written (R178). -/
def State.deliver (T : Wide) (s : State) : State :=
  { s with tag := T, phase := .finalized, err := .ok }

/-- `BLOCK[i] <- v` (`20_memory.md` R58). -/
def State.stageBlock (i : Fin 4) (v : Word) (s : State) : State := { s with block := s.block.set i v }

/-- `KEY[i] <- v` (R58). -/
def State.stageKey (i : Fin 8) (v : Word) (s : State) : State := { s with key := s.key.set i v }

/-- The port answers the host. -/
def State.answer (a : HostReply) (s : State) : State := { s with reply := a }

/-- The reset input (`70_reset_and_hazards.md` R260): every element of the engine takes its reset value.
What the host sends afterwards is not the engine's and stays pending (log entry 10). -/
def State.restart (s : State) : State := { State.reset with port := s.port }

/-- The byte offset of a register in the window (R51). -/
def Reg.offset : Reg → Nat
  | .cmd => 0x00
  | .status => 0x04
  | .block i => 0x10 + 4 * i.val
  | .key i => 0x20 + 4 * i.val
  | .tag i => 0x40 + 4 * i.val

/-- The register at a byte offset, none where the table of R51 has no register. -/
def regAt (off : Nat) : Option Reg :=
  match off with
  | 0x00 => some .cmd
  | 0x04 => some .status
  | 0x10 => some (.block 0)
  | 0x14 => some (.block 1)
  | 0x18 => some (.block 2)
  | 0x1C => some (.block 3)
  | 0x20 => some (.key 0)
  | 0x24 => some (.key 1)
  | 0x28 => some (.key 2)
  | 0x2C => some (.key 3)
  | 0x30 => some (.key 4)
  | 0x34 => some (.key 5)
  | 0x38 => some (.key 6)
  | 0x3C => some (.key 7)
  | 0x40 => some (.tag 0)
  | 0x44 => some (.tag 1)
  | 0x48 => some (.tag 2)
  | 0x4C => some (.tag 3)
  | _ => none

/-- The access check of R55 and R56: the register an access names, or why it is malformed. Where several
grounds hold the first of size, window, alignment and reservation is named (log entry 9). -/
def checkAccess (size off : Nat) : Except AccessError Reg :=
  if size ≠ 4 then .error .wrongSize
  else if Config.windowSize ≤ off then .error .outsideWindow
  else if off % 4 ≠ 0 then .error .misaligned
  else
    match regAt off with
    | some reg => .ok reg
    | none => .error .reservedOffset

/-- What a read of a register returns (`43_host_access.md` R201): CMD and KEY read as 0
(`10_state.md` R28, R31). A read changes nothing (`20_memory.md` R57). -/
def State.readReg (s : State) : Reg → Word
  | .cmd => 0#32
  | .status => s.status
  | .block i => s.block.get i
  | .key _ => 0#32
  | .tag i => s.tagWord i

end Sys2Proof.Machine
end

