-- ==== Sys2Proof/Machine/Absorb.lean ====
section
/-! DEFINITION. The meanings of `ABSORB` and `ABSORBP` (`41_absorb.md` section 4). -/

namespace Sys2Proof.Machine

/-- `ABSORB`: absorb the full block staged in BLOCK (R144), in every phase with a key (R148). -/
def execAbsorb (s : State) : Host.Outcome State Fault Refusal :=
  .next (requireKey s (s.accumulate (absorbStep s.r s.h s.block.fullInteger)))

/-- `ABSORBP len`: absorb a final partial block of `len` bytes (R145). A term with `len = 0` stands for an
illegal word and is answered as that word is (log entry 8). -/
def execAbsorbp (len : BitVec 4) (s : State) : Host.Outcome State Fault Refusal :=
  if len = 0#4 then .next (execIllegal s)
  else .next (requireKey s (s.accumulate (absorbStep s.r s.h (s.block.partialInteger len.toNat))))

end Sys2Proof.Machine
end

