-- ==== Sys2Proof/Machine/Finalizer.lean ====
section
/-! DEFINITION. The constant-time finalization adder of `42_finalize.md` section 2. -/

namespace Sys2Proof.Machine

/-- The candidate `g` and the carry `sel` out of bit 129 of `V(x) + 5` (R172). -/
def candidate (x : LimbRegs) : LimbRegs × Nat :=
  let y := carryChain 5 x.toVec
  (y.1.toRegs, y.2)

/-- The 26-bit value whose every bit equals `sel` (R173). -/
def selectMask (sel : Nat) : Limb := if sel = 0 then 0#26 else BitVec.allOnes 26

/-- One limb of the multiplexer: `(x & ~mask) | (g & mask)` (R173). -/
def selectLimb (mask x g : Limb) : Limb := (x &&& ~~~mask) ||| (g &&& mask)

/-- The selected vector `f` (R173): both candidates are always computed. -/
def selected (x : LimbRegs) : LimbRegs :=
  let g := (candidate x).1
  let mask := selectMask (candidate x).2
  ⟨selectLimb mask x.l0 g.l0, selectLimb mask x.l1 g.l1, selectLimb mask x.l2 g.l2,
    selectLimb mask x.l3 g.l3, selectLimb mask x.l4 g.l4⟩

/-- `Canon(x)` (R171), computed by candidate and select: `F = V(f)` (R173). -/
def canon (x : LimbRegs) : Nat := (selected x).value

/-- The pad addition `T = (F + s) mod 2^128` (R174). -/
def padAdd (F : Nat) (s : Wide) : Wide := BitVec.ofNat 128 (F + s.toNat)

end Sys2Proof.Machine
end

