-- ==== Sys2Proof/Machine/Final.lean ====
section
/-! DEFINITION. The meanings of `FINAL` and `FINALP` (`42_finalize.md` section 3). -/

namespace Sys2Proof.Machine

/-- `FINAL`: the tag of the blocks absorbed so far (R176), in every phase with a key (R180). -/
def execFinal (s : State) : Host.Outcome State Fault Refusal :=
  .next (requireKey s (s.deliver (padAdd (canon s.h) s.s)))

/-- `FINALP len`: the tag as if a final partial block of `len` bytes followed, computed on a copy of the
accumulator (R177). A term with `len = 0` stands for an illegal word and is answered as that word is
(log entry 8). -/
def execFinalp (len : BitVec 4) (s : State) : Host.Outcome State Fault Refusal :=
  if len = 0#4 then .next (execIllegal s)
  else .next (requireKey s
    (s.deliver (padAdd (canon (absorbStep s.r s.h (s.block.partialInteger len.toNat))) s.s)))

end Sys2Proof.Machine
end

