-- ==== Sys2Proof/Machine/Init.lean ====
section
/-! DEFINITION. The meaning of `INIT` (`40_init.md`). -/

namespace Sys2Proof.Machine

/-- `INIT klen`: with `klen = 32` the staged key is accepted (R110), in every phase (R117) and whatever its
value (R118); any other length is refused and tears the instance down (R116). -/
def execInit (klen : BitVec 8) (s : State) : Host.Outcome State Fault Refusal :=
  if klen.toNat = Config.keySize then .next s.acceptKey else .next s.refuseKey

end Sys2Proof.Machine
end

