-- ==== Sys2Proof/Machine/Dispatch.lean ====
section
/-! DEFINITION. The one dispatch: an instruction to its meaning. -/

namespace Sys2Proof.Machine

-- The meaning of every instruction of opcode_table.json, in the table's order.
def exec (i : Instr) (s : State) : Host.Outcome State Fault Refusal :=
  match i with
  | .init klen => Sys2Proof.Machine.execInit klen s
  | .absorb => Sys2Proof.Machine.execAbsorb s
  | .absorbp len => Sys2Proof.Machine.execAbsorbp len s
  | .final => Sys2Proof.Machine.execFinal s
  | .finalp len => Sys2Proof.Machine.execFinalp len s

end Sys2Proof.Machine
end

