-- ==== Sys2Proof/Machine/HostPort.lean ====
section
/-! DEFINITION. The host port: what one access does to the machine (`43_host_access.md` R200, R201), and how
a host reaches it at an address of its own map. -/

namespace Sys2Proof.Machine

/-- What performing one event comes to. -/
inductive PortAction where
  /-- It is done; this is the machine after it. -/
  | settled (t : State)
  /-- It was a write to CMD of this word, to be executed in this state (`30_encoding.md` R80). -/
  | command (w : Word) (t : State)
  /-- It was malformed. -/
  | stopped (f : Fault)
  deriving DecidableEq, Repr

/-- An accepted write, by register (R200): CMD issues a command, BLOCK and KEY are stored, STATUS and TAG
are ignored. -/
def writeReg (s : State) (reg : Reg) (v : Word) : PortAction :=
  match reg with
  | .cmd => .command v s
  | .status => .settled s
  | .block i => .settled (s.stageBlock i v)
  | .key i => .settled (s.stageKey i v)
  | .tag _ => .settled s

/-- A malformed access (`20_memory.md` R56): no element of the engine changes, no command is issued, no
value is returned. -/
def malformed (s : State) (why : AccessError) : PortAction :=
  .stopped (.hostAccessFault why (s.answer .hostAccessFault))

/-- Performing one event completely (R59). -/
def performEvent (s : State) (e : HostEvent) : PortAction :=
  match e with
  | .read size off =>
    match checkAccess size off with
    | .ok reg => .settled (s.answer (.value (s.readReg reg)))
    | .error why => malformed s why
  | .write size off v =>
    match checkAccess size off with
    | .ok reg => writeReg (s.answer .accepted) reg v
    | .error why => malformed s why
  | .reset => .settled s.restart

/-- The offset of an address in the window at `BASE`, none outside it (R51, R52). -/
def windowOffset (addr : Nat) : Option Nat :=
  if Config.base ≤ addr ∧ addr < Config.base + Config.windowSize then some (addr - Config.base) else none

/-- The host's own access function, at an address of its map: an access inside the window joins those
pending at the port; one outside it is not the engine's and is refused (`93_implementation_defined.md` X5).
The access is a function of the offset. -/
def submitAt (addr : Nat) (access : Nat → HostEvent) (s : State) : Host.Outcome State Fault Refusal :=
  match windowOffset addr with
  | some off => .next { s with port := s.port ++ [access off] }
  | none => .refused .outsideWindow

end Sys2Proof.Machine
end

