-- ==== Sys2Proof/Machine/Step.lean ====
section
/-! DEFINITION. One step: the engine performs the next access of its port, completely (`20_memory.md` R59). -/

namespace Sys2Proof.Machine

/-- One step. With no access pending the engine is idle and waits (`70_reset_and_hazards.md` R260): nothing
changes. A write to CMD executes exactly one command (`30_encoding.md` R80): a legal word by its meaning, an
illegal one by R86. -/
def step (s : State) : Host.Outcome State Fault Refusal :=
  match s.port with
  | [] => .next s
  | e :: rest =>
    match performEvent { s with port := rest } e with
    | .settled t => .next t
    | .stopped f => .fault f
    | .command w t =>
      match decode w with
      | .ok i => exec i t
      | .error _ => .next (execIllegal t)

/-- The state in which the next access at the port is a write of this word to CMD: where the engine takes its
next instruction from (log entry 5). -/
def State.withFetchWord (s : State) (nbits w : Nat) : State :=
  { s with port := .write 4 0x00 (BitVec.ofNat 32 (w % 2 ^ nbits)) :: s.port }

end Sys2Proof.Machine
end

