-- ==== Sys2Proof/Machine/HostProgram.lean ====
section
/-! DEFINITION. The host's notation as sequences of port events: the access lines, mnemonics and
pseudo-instructions of `30_encoding.md` R88 and R89, the canonical program of `43_host_access.md` R203, and the
command sequences its adapter's operations map to (R204 to R207). They are what a host may put into
`State.port`; the step reads none of them. -/

namespace Sys2Proof.Machine

/-- `WR reg, value` (R88). -/
def wr (reg : Reg) (v : Word) : HostEvent := .write 4 reg.offset v

/-- `RD reg` (R88). -/
def rd (reg : Reg) : HostEvent := .read 4 reg.offset

/-- A mnemonic line: the write of its word to CMD (R88). -/
def issue (i : Instr) : HostEvent := wr .cmd (encode i)

/-- `LE(b[4i..4i+3])`, bytes that a shorter string lacks counting as 0 (R89). -/
def byteWord (b : List Byte) (i : Nat) : Word := BitVec.ofNat 32 (leValue ((b.drop (4 * i)).take 4))

/-- `LDKEY k` (R89). -/
def ldkey (k : List Byte) : List HostEvent := (List.finRange 8).map fun i => wr (.key i) (byteWord k i.val)

/-- `LDBLK b` (R89): the bytes it lacks are written as zero. -/
def ldblk (b : List Byte) : List HostEvent := (List.finRange 4).map fun i => wr (.block i) (byteWord b i.val)

/-- `RDTAG` (R89). -/
def rdtag : List HostEvent := (List.finRange 4).map fun i => rd (.tag i)

/-- `RDSTAT` (R89). -/
def rdstat : List HostEvent := [rd .status]

/-- `New(key)` and the engine's half of `Reset(newKey)` (R204, R207): at most 32 bytes are staged, the missing
ones as 0, and the length declared is at most 255. -/
def adapterNew (key : List Byte) : List HostEvent :=
  ldkey key ++ [issue (.init (BitVec.ofNat 8 (min key.length 255)))]

/-- One byte of `Write` (R205): a block is sent as soon as it is complete. `buf` is the adapter's buffer of 0
to 15 bytes; what is sent and the buffer left are returned. -/
def adapterPush (buf : List Byte) (b : Byte) : List HostEvent × List Byte :=
  if (buf ++ [b]).length = Config.blockSize then (ldblk (buf ++ [b]) ++ [issue .absorb], []) else ([], buf ++ [b])

/-- `Write(bytes)` (R205). -/
def adapterWrite (buf : List Byte) : List Byte → List HostEvent × List Byte
  | [] => ([], buf)
  | b :: bs =>
    let first := adapterPush buf b
    let others := adapterWrite first.2 bs
    (first.1 ++ others.1, others.2)

/-- The engine's half of `Sum` (R206): `FINAL` for an empty buffer, else `FINALP` of its bytes, then `RDTAG`. -/
def adapterSum (buf : List Byte) : List HostEvent :=
  if buf = [] then issue .final :: rdtag
  else ldblk buf ++ issue (.finalp (BitVec.ofNat 4 buf.length)) :: rdtag

/-- A call the adapter takes between `New` and the last `Sum` (R205, R206). -/
inductive AdapterCall where
  | write (bytes : List Byte)
  | sum
  deriving DecidableEq, Repr

/-- The bytes a call appends to the message. -/
def AdapterCall.bytes : AdapterCall → List Byte
  | .write bytes => bytes
  | .sum => []

/-- One call with `buf` in the adapter's buffer: what is sent, and the buffer left. `Sum` keeps the buffer (R206). -/
def AdapterCall.send (buf : List Byte) : AdapterCall → List HostEvent × List Byte
  | .write bytes => adapterWrite buf bytes
  | .sum => (adapterSum buf, buf)

/-- The calls of a list, one after another. -/
def adapterCalls (buf : List Byte) : List AdapterCall → List HostEvent × List Byte
  | [] => ([], buf)
  | c :: cs =>
    let first := c.send buf
    let others := adapterCalls first.2 cs
    (first.1 ++ others.1, others.2)

/-- What a whole session sends: `New(key)`, the calls, and a last `Sum`. -/
def adapterSession (key : List Byte) (calls : List AdapterCall) : List HostEvent :=
  let sent := adapterCalls [] calls
  adapterNew key ++ sent.1 ++ adapterSum sent.2

/-- `LDBLK` and `ABSORB` of each of the first `q` full blocks of a message (R203). -/
def absorbLines (msg : List Byte) (q : Nat) : List HostEvent :=
  (List.range q).flatMap fun i => ldblk ((msg.drop (16 * i)).take 16) ++ [issue .absorb]

/-- The canonical program for one message, line by line (R203). -/
def canonicalProgram (key msg : List Byte) : List HostEvent :=
  let q := msg.length / 16
  let u := msg.length % 16
  ldkey key ++ [issue (.init 32#8)] ++ absorbLines msg q ++
    (if u = 0 then [issue .final] else ldblk (msg.drop (16 * q)) ++ [issue (.finalp (BitVec.ofNat 4 u))]) ++ rdtag

end Sys2Proof.Machine
end

