-- ==== Sys2Proof/Machine/Reference.lean ====
section
/-! DEFINITION. What the engine exists to compute, in plain integers (`43_host_access.md` R202), and the
absorption of a list of blocks by the machine's own `ABSORB`. -/

namespace Sys2Proof.Machine

/-- `n_1*R^Q + n_2*R^(Q-1) + ... + n_Q*R` (`41_absorb.md` R147, R202). -/
def polyEval (R : Nat) : List Nat → Nat
  | [] => 0
  | n :: ns => n * R ^ (ns.length + 1) + polyEval R ns

/-- `(A + s) mod 2^128`, the tag as an integer, of the block integers `ns` under the multiplier `R` and the
mask `s` (R202). -/
def referenceTag (R s : Nat) (ns : List Nat) : Nat := (polyEval R ns % Config.modulus + s) % 2 ^ 128

/-- The block integers of a message (R202): `q` full blocks, then a partial one if bytes are left. -/
def messageIntegers (msg : List Byte) : List Nat :=
  let q := msg.length / 16
  let u := msg.length % 16
  (List.range q).map (fun i => leValue ((msg.drop (16 * i)).take 16) + 2 ^ 128) ++
    (if u = 0 then [] else [leValue (msg.drop (16 * q)) + 2 ^ (8 * u)])

/-- `Poly1305(key, msg)` (R202). -/
def poly1305 (key msg : List Byte) : List Byte :=
  leBytes 16 (referenceTag ((BitVec.ofNat 128 (leValue (key.take 16)) &&& Config.clampMask).toNat)
    (leValue ((key.drop 16).take 16)) (messageIntegers msg))

/-- `ABSORB` of each of a list of blocks, staged one after another. -/
def absorbBlocks : List BlockRegs → State → Host.Outcome State Fault Refusal
  | [], s => .next s
  | b :: bs, s =>
    match exec .absorb { s with block := b } with
    | .next t => absorbBlocks bs t
    | .fault f => .fault f
    | .refused f => .refused f

end Sys2Proof.Machine
end

