-- ==== Sys2Proof/Safety.lean ====
section
/-! DEFINITION. The terms claims use: the invariants of `10_state.md` R36, the illegal words as the spec lists
them, the accesses a safe host makes, and when two machines are alike to their host. -/

namespace Sys2Proof.Machine

/-- The invariants INV1 to INV5 of R36. -/
structure State.Inv (s : State) : Prop where
  /-- INV1: `acc = V(h) < 2^130`. -/
  accBound : s.h.value < 2 ^ 130
  /-- INV2: no bit of the multiplier lies outside the clamp's mask. -/
  clamped : s.r.value &&& Config.clampMask.toNat = s.r.value
  /-- INV3. -/
  unkeyed : s.phase = .uninitialized → s.r = .zero ∧ s.s = 0#128 ∧ s.h = .zero ∧ s.tag = 0#128
  /-- INV4. -/
  noTag : s.phase ≠ .finalized → s.tag = 0#128
  /-- INV5. -/
  fresh : s.phase = .initialized → s.h = .zero

/-- The seven classes of illegal words of `30_encoding.md` R86, (a) to (g), on the five fields read as integers. -/
abbrev ListedIllegalFields (OP FP RSV0 LEN RSV1 : Nat) : Prop :=
  (OP ≠ 1 ∧ OP ≠ 2 ∧ OP ≠ 3) ∨
    (RSV0 ≠ 0 ∨ RSV1 ≠ 0) ∨
    (OP = 1 ∧ FP = 1) ∨
    (OP = 2 ∧ FP = 0 ∧ LEN ≠ 16) ∨
    (OP = 2 ∧ FP = 1 ∧ (LEN = 0 ∨ 16 ≤ LEN)) ∨
    (OP = 3 ∧ FP = 0 ∧ LEN ≠ 0) ∨
    (OP = 3 ∧ FP = 1 ∧ (LEN = 0 ∨ 16 ≤ LEN))

/-- The words that R86 lists as illegal, by the fields of R81. -/
abbrev ListedIllegal (w : Nat) : Prop :=
  ListedIllegalFields (w % 2 ^ 4) (w / 2 ^ 4 % 2) (w / 2 ^ 5 % 2 ^ 3) (w / 2 ^ 8 % 2 ^ 8) (w / 2 ^ 16)

/-- An access of this size and offset is accepted (`20_memory.md` R55, R56). -/
abbrev AcceptedAccess (size off : Nat) : Prop :=
  size = 4 ∧ off % 4 = 0 ∧ off ≠ 0x08 ∧ off ≠ 0x0C ∧ off < 0x50

/-- An event a safe host sends: an accepted access, or a reset. -/
abbrev HostEvent.Accepted (e : HostEvent) : Prop :=
  match e with
  | .read size off => AcceptedAccess size off
  | .write size off _ => AcceptedAccess size off
  | .reset => True

/-- A safe run: everything pending at the port is accepted, so no step stops. -/
def State.SafePort (s : State) : Prop := ∀ e ∈ s.port, e.Accepted

/-- Two machines that differ in `h` at most, and hold the same residue in it (`10_state.md` R34). -/
structure State.SameResidue (s t : State) : Prop where
  others : t = { s with h := t.h }
  residue : s.h.value % Config.modulus = t.h.value % Config.modulus

/-- The same outcome, up to the representative held in `h`. -/
def SameOutcome : Host.Outcome State Fault Refusal → Host.Outcome State Fault Refusal → Prop
  | .next s, .next t => s.SameResidue t
  | .fault (.hostAccessFault a s), .fault (.hostAccessFault b t) => a = b ∧ s.SameResidue t
  | _, _ => False

end Sys2Proof.Machine
end

