-- ==== Sys2Proof/Certificates/Slice0/Obligations.lean ====
section
/-! DEFINITION. The statements about the engine, from the numbered rules of the spec. -/

open Sys2Proof Sys2Proof.Machine

/-! ### Encoding -/

/-- R83: the word of every well-formed instruction decodes to that instruction, with its operand. -/
def Obligations.EncodeThenDecodeReturnsInstruction : Prop :=
  ∀ i : Instr, i.WellFormed → decode (encode i) = .ok i

/-- R83, R87: a word that decodes is the word of a well-formed instruction, so each instruction has one word. -/
def Obligations.DecodedWordIsItsInstructionsEncoding : Prop :=
  ∀ (w : Word) (i : Instr), decode w = .ok i → i.WellFormed ∧ encode i = w

/-- R83: the legal words are the five rows, by mask, match and `LEN`. -/
def Obligations.LegalWordsAreTheTableRows : Prop :=
  ∀ w : Word,
    (∀ klen, decode w = .ok (.init klen) ↔
      w &&& 0xFFFF00FF#32 = 0x00000001#32 ∧ klen.toNat = w.toNat / 2 ^ 8 % 2 ^ 8) ∧
    (decode w = .ok .absorb ↔ w &&& 0xFFFFFFFF#32 = 0x00001002#32) ∧
    (∀ len, decode w = .ok (.absorbp len) ↔
      w &&& 0xFFFFF0FF#32 = 0x00000012#32 ∧ len.toNat = w.toNat / 2 ^ 8 % 2 ^ 8 ∧ len ≠ 0#4) ∧
    (decode w = .ok .final ↔ w &&& 0xFFFFFFFF#32 = 0x00000003#32) ∧
    (∀ len, decode w = .ok (.finalp len) ↔
      w &&& 0xFFFFF0FF#32 = 0x00000013#32 ∧ len.toNat = w.toNat / 2 ^ 8 % 2 ^ 8 ∧ len ≠ 0#4)

/-- R86: the illegal words are exactly the seven classes, and writing one to CMD changes `err` alone. -/
def Obligations.IllegalWordsAreTheListedClasses : Prop :=
  ∀ w : Word,
    ((∃ x, decode w = .error x) ↔ ListedIllegal w.toNat) ∧
    (ListedIllegal w.toNat → ∀ (s : State) (rest : List HostEvent), s.port = .write 4 0x00 w :: rest →
      step s = .next { s with port := rest, reply := .accepted, err := .illegalCommand })

/-- R83, `95_test_vectors.md` section 5.2: words written out from the encoding, one at least of each instruction;
and two words that are illegal by R86, one by its class (e) alone and one by its class (c) alone. -/
def Obligations.SpecWordsDecodeAsTheTableSays : Prop :=
  decode 0x00002001#32 = .ok (.init 32#8) ∧ decode 0x0000FF01#32 = .ok (.init 255#8) ∧
    decode 0x00001002#32 = .ok .absorb ∧ decode 0x00000F12#32 = .ok (.absorbp 15#4) ∧
    decode 0x00000003#32 = .ok .final ∧ decode 0x00000C13#32 = .ok (.finalp 12#4) ∧
    decode 0x00000012#32 = .error .absorbpLength ∧ decode 0x00002011#32 = .error .initFinalPartial

/-- `95_test_vectors.md` section 5.2, from R83: there are 288 legal words. -/
def Obligations.ThereAre288LegalWords : Prop :=
  ∃ words : List Word, words.Nodup ∧ words.length = 288 ∧ ∀ w, w ∈ words ↔ ∃ i, decode w = .ok i

/-! ### Steps, reset and the invariants -/

/-- R80: a write of a word to CMD runs the instruction the word decodes to, in the state with that access
taken from the port and answered (the port is log entry 1). -/
def Obligations.StepRunsTheDecodedInstruction : Prop :=
  ∀ (s : State) (w : Word) (i : Instr) (rest : List HostEvent),
    s.port = .write 4 0x00 w :: rest → decode w = .ok i →
      step s = exec i { s with port := rest, reply := .accepted }

/-- R59 on the model's port (log entry 1): the outcome of a step is that of the first event alone at the port,
with the others, untouched and in order, pending again; nothing of them is looked at. -/
def Obligations.StepDependsOnTheFirstEventOnly : Prop :=
  ∀ (s : State) (e : HostEvent) (rest : List HostEvent), s.port = e :: rest →
    (∃ t, step { s with port := [e] } = .next t ∧ t.port = [] ∧ step s = .next { t with port := rest }) ∨
      ∃ why left, step { s with port := [e] } = .fault (.hostAccessFault why left) ∧ left.port = [] ∧
        step s = .fault (.hostAccessFault why { left with port := rest })

/-- R260, the model's choice of log entry 2: with nothing pending a step changes nothing. -/
def Obligations.IdleEngineWaits : Prop :=
  ∀ s : State, s.port = [] → step s = .next s

/-- R260, R38: an assertion of the reset input gives every element its reset value from any state. That
accesses stay pending is the model's choice (log entry 10). -/
def Obligations.ResetInputClearsTheEngine : Prop :=
  ∀ (s : State) (rest : List HostEvent), s.port = .reset :: rest →
    ∃ t, step s = .next t ∧ t.port = rest ∧ t.phase = .uninitialized ∧ t.err = .ok ∧
      t.r.value = 0 ∧ t.s = 0#128 ∧ t.h.value = 0 ∧ t.tag = 0#128 ∧
      (∀ i, t.key.get i = 0#32) ∧ ∀ i, t.block.get i = 0#32

/-- R38: every element's value after reset, and what the host reads then. -/
def Obligations.ResetStateIsAllZero : Prop :=
  State.reset.phase.code = 0#2 ∧ State.reset.err.code = 0#2 ∧
    State.reset.r = ⟨0#26, 0#26, 0#26, 0#26, 0#26⟩ ∧ State.reset.s = 0#128 ∧
    State.reset.h = ⟨0#26, 0#26, 0#26, 0#26, 0#26⟩ ∧ State.reset.tag = 0#128 ∧
    (∀ i, State.reset.key.get i = 0#32) ∧ (∀ i, State.reset.block.get i = 0#32) ∧
    ∀ reg, State.reset.readReg reg = 0#32

/-- R36: INV1 to INV5 hold after reset. -/
def Obligations.InvariantsHoldAtReset : Prop := State.reset.Inv

/-- R36: every step keeps INV1 to INV5, whatever the access, the command and its response; an access that
faults leaves them too. -/
def Obligations.EveryStepKeepsTheInvariants : Prop :=
  ∀ s : State, s.Inv →
    (∀ t, step s = .next t → t.Inv) ∧ ∀ why left, step s = .fault (.hostAccessFault why left) → left.Inv

/-- R20, the column "written by": an element changes in a step only through the accesses listed for it. -/
def Obligations.OnlyTheListedWritersChangeEachElement : Prop :=
  ∀ (s t : State) (e : HostEvent) (rest : List HostEvent), s.port = e :: rest → step s = .next t →
    e = .reset ∨
      (((t.r ≠ s.r ∨ t.s ≠ s.s) → ∃ w klen, e = .write 4 0x00 w ∧ decode w = .ok (.init klen)) ∧
       (t.h ≠ s.h → ∃ w i, e = .write 4 0x00 w ∧ decode w = .ok i ∧ i ≠ .final ∧ ∀ len, i ≠ .finalp len) ∧
       ((t.phase ≠ s.phase ∨ t.tag ≠ s.tag) → ∃ w i, e = .write 4 0x00 w ∧ decode w = .ok i) ∧
       (t.err ≠ s.err → ∃ w, e = .write 4 0x00 w) ∧
       (∀ i : Fin 8, t.key.get i ≠ s.key.get i → ∃ v, e = .write 4 (0x20 + 4 * i.val) v) ∧
       (∀ i : Fin 4, t.block.get i ≠ s.block.get i → ∃ v, e = .write 4 (0x10 + 4 * i.val) v))

/-! ### Host accesses -/

/-- R201: what a read returns at each offset, that it changes nothing of the engine, and that a malformed
read faults. -/
def Obligations.HostReadReturnsTheRegister : Prop :=
  ∀ (s : State) (size off : Nat) (rest : List HostEvent), s.port = .read size off :: rest →
    let returns (v : Word) := step s = .next { s with port := rest, reply := .value v }
    ((size ≠ 4 ∨ off % 4 ≠ 0 ∨ off = 0x08 ∨ off = 0x0C ∨ 0x50 ≤ off) →
      ∃ why, step s = .fault (.hostAccessFault why { s with port := rest, reply := .hostAccessFault })) ∧
    (size = 4 →
      (off = 0x00 → returns 0#32) ∧
      (off = 0x04 → returns (BitVec.ofNat 32 (s.phase.code.toNat + 16 * s.err.code.toNat))) ∧
      (∀ i : Fin 4, off = 0x10 + 4 * i.val → returns (s.block.get i)) ∧
      (∀ i : Fin 8, off = 0x20 + 4 * i.val → returns 0#32) ∧
      ∀ i : Fin 4, off = 0x40 + 4 * i.val → returns (BitVec.ofNat 32 (s.tag.toNat / 2 ^ (32 * i.val))))

/-- R200: what a write does at each offset, and that a malformed write faults. -/
def Obligations.HostWriteStoresCommandsOrIsIgnored : Prop :=
  ∀ (s : State) (size off : Nat) (v : Word) (rest : List HostEvent), s.port = .write size off v :: rest →
    let after : State := { s with port := rest, reply := .accepted }
    ((size ≠ 4 ∨ off % 4 ≠ 0 ∨ off = 0x08 ∨ off = 0x0C ∨ 0x50 ≤ off) →
      ∃ why, step s = .fault (.hostAccessFault why { s with port := rest, reply := .hostAccessFault })) ∧
    (size = 4 →
      (off = 0x00 →
        (∀ i, decode v = .ok i → step s = exec i after) ∧
        (∀ x, decode v = .error x → step s = .next { after with err := .illegalCommand })) ∧
      (off = 0x04 → step s = .next after) ∧
      (∀ i : Fin 4, off = 0x10 + 4 * i.val → ∃ b, step s = .next { after with block := b } ∧
        ∀ j, b.get j = if j = i then v else s.block.get j) ∧
      (∀ i : Fin 8, off = 0x20 + 4 * i.val → ∃ k, step s = .next { after with key := k } ∧
        ∀ j, k.get j = if j = i then v else s.key.get j) ∧
      ∀ i : Fin 4, off = 0x40 + 4 * i.val → step s = .next after)

/-- R55, R56: an access faults exactly when it is not of 4 bytes at a non-reserved multiple of 4 of the
window, and a faulting access leaves the engine as it was. That the run ends there is the model's choice
(log entry 4). -/
def Obligations.ExactlyMalformedAccessesFault : Prop :=
  ∀ (s : State) (e : HostEvent) (rest : List HostEvent), s.port = e :: rest →
    (¬ e.Accepted → ∃ why, step s =
      .fault (.hostAccessFault why { s with port := rest, reply := .hostAccessFault })) ∧
    (e.Accepted → ∃ t, step s = .next t)

/-- R282, R239: while every access pending is accepted no step stops, and every access still pending is
accepted. -/
def Obligations.AcceptedAccessesNeverStop : Prop :=
  ∀ s : State, s.SafePort → ∃ t, step s = .next t ∧ t.SafePort

/-- R30, with the numbers of R22 and of R27: the fields of STATUS for every phase and every response, that
reading it has no effect and that writing it is ignored. -/
def Obligations.StatusShowsPhaseAndResponse : Prop :=
  ∀ s : State,
    let status := (s.readReg .status).toNat
    ((s.phase = .uninitialized → status % 2 ^ 2 = 0) ∧ (s.phase = .initialized → status % 2 ^ 2 = 1) ∧
      (s.phase = .absorbing → status % 2 ^ 2 = 2) ∧ (s.phase = .finalized → status % 2 ^ 2 = 3)) ∧
    status / 2 ^ 2 % 2 ^ 2 = 0 ∧
    ((s.err = .ok → status / 2 ^ 4 % 2 ^ 2 = 0) ∧ (s.err = .invalidKeyLength → status / 2 ^ 4 % 2 ^ 2 = 1) ∧
      (s.err = .notInitialized → status / 2 ^ 4 % 2 ^ 2 = 2) ∧
      (s.err = .illegalCommand → status / 2 ^ 4 % 2 ^ 2 = 3)) ∧
    status / 2 ^ 6 = 0 ∧
    (∀ rest, s.port = .read 4 0x04 :: rest →
      step s = .next { s with port := rest, reply := .value (s.readReg .status) }) ∧
    ∀ rest v, s.port = .write 4 0x04 v :: rest → step s = .next { s with port := rest, reply := .accepted }

/-- R54: byte lanes. Byte `k` of the block, and of the whole key, is a byte lane of word `k div 4`, and the
four TAG words make the tag. -/
def Obligations.ByteLanesAreLittleEndian : Prop :=
  ∀ s : State,
    (∀ k : Fin 16, s.block.value / 2 ^ (8 * k.val) % 2 ^ 8 =
      (s.block.get ⟨k.val / 4, by omega⟩).toNat / 2 ^ (8 * (k.val % 4)) % 2 ^ 8) ∧
    (∀ k : Fin 32, (s.key.rHalf + s.key.sHalf * 2 ^ 128) / 2 ^ (8 * k.val) % 2 ^ 8 =
      (s.key.get ⟨k.val / 4, by omega⟩).toNat / 2 ^ (8 * (k.val % 4)) % 2 ^ 8) ∧
    s.tag.toNat = (s.readReg (.tag 0)).toNat + (s.readReg (.tag 1)).toNat * 2 ^ 32 +
      (s.readReg (.tag 2)).toNat * 2 ^ 64 + (s.readReg (.tag 3)).toNat * 2 ^ 96

/-- R34, R28: what a read answers does not depend on `r`, `s`, `h` or KEY. -/
def Obligations.ReadsRevealNoSecret : Prop :=
  ∀ (s t : State) (size off : Nat), s.phase = t.phase → s.err = t.err → s.tag = t.tag → s.block = t.block →
    s.port.head? = some (.read size off) → t.port.head? = some (.read size off) →
      (∃ u v, step s = .next u ∧ step t = .next v ∧ u.reply = v.reply) ∨
      ∃ why u v, step s = .fault (.hostAccessFault why u) ∧ step t = .fault (.hostAccessFault why v)

/-- R34, R146: two machines that differ in the representative held in `h` alone take every step alike, and
differ in it alone afterwards: no answer, tag, status or error depends on which representative it is. -/
def Obligations.RepresentativeOfTheResidueIsUnobservable : Prop :=
  ∀ s t : State, s.SameResidue t → SameOutcome (step s) (step t)

/-- R51 and `93_implementation_defined.md` X5: an access at an address of the window reaches the port at its
offset, and one outside it is refused. -/
def Obligations.WindowAddressesReachTheirOffsets : Prop :=
  ∀ (s : State) (access : Nat → HostEvent) (addr : Nat),
    (∀ off, off < 0x80 → addr = Config.base + off →
      submitAt addr access s = .next { s with port := s.port ++ [access off] }) ∧
    ((addr < Config.base ∨ Config.base + 0x80 ≤ addr) → submitAt addr access s = .refused .outsideWindow)

/-! ### INIT -/

/-- R110: `INIT 32` accepts the staged key in every phase: `R`, `s` and the rest of the state after it. -/
def Obligations.InitAcceptsTheStagedKey : Prop :=
  decode 0x00002001#32 = .ok (.init 32#8) ∧
  ∀ s : State, ∃ t, exec (.init 32#8) s = .next t ∧
    t.r.value = ((s.key.get 0).toNat + (s.key.get 1).toNat * 2 ^ 32 + (s.key.get 2).toNat * 2 ^ 64 +
      (s.key.get 3).toNat * 2 ^ 96) &&& 0x0ffffffc0ffffffc0ffffffc0fffffff ∧
    t.s.toNat = (s.key.get 4).toNat + (s.key.get 5).toNat * 2 ^ 32 + (s.key.get 6).toNat * 2 ^ 64 +
      (s.key.get 7).toNat * 2 ^ 96 ∧
    t = { s with r := t.r, s := t.s, h := ⟨0#26, 0#26, 0#26, 0#26, 0#26⟩, tag := 0#128, phase := .initialized,
                 err := .ok }

/-- R112: the clamp byte by byte, and the bound it gives. -/
def Obligations.InitClampsByteByByte : Prop :=
  ∀ s t : State, exec (.init 32#8) s = .next t →
    t.r.value < 2 ^ 124 ∧
    ∀ k : Fin 16, t.r.value / 2 ^ (8 * k.val) % 2 ^ 8 =
      s.key.rHalf / 2 ^ (8 * k.val) % 2 ^ 8 &&&
        (if k.val = 3 ∨ k.val = 7 ∨ k.val = 11 ∨ k.val = 15 then 0x0f
         else if k.val = 4 ∨ k.val = 8 ∨ k.val = 12 then 0xfc else 0xff)

/-- R23: in every state with the invariants the limbs of `r` obey their masks and `R < 2^124`. -/
def Obligations.MultiplierLimbsObeyTheirMasks : Prop :=
  ∀ s : State, s.Inv →
    s.r.value < 2 ^ 124 ∧ s.r.l1 &&& ~~~0x3ffff03#26 = 0#26 ∧ s.r.l2 &&& ~~~0x3ffc0ff#26 = 0#26 ∧
      s.r.l3 &&& ~~~0x3f03fff#26 = 0#26 ∧ s.r.l4 &&& ~~~0x00fffff#26 = 0#26

/-- R116: `INIT` with any other length refuses the key and tears the instance down; KEY and BLOCK stay. -/
def Obligations.InitWithAnotherLengthTearsDown : Prop :=
  ∀ (klen : BitVec 8) (s : State), klen.toNat ≠ 32 →
    exec (.init klen) s = .next
      { s with r := ⟨0#26, 0#26, 0#26, 0#26, 0#26⟩, s := 0#128, h := ⟨0#26, 0#26, 0#26, 0#26, 0#26⟩, tag := 0#128,
               phase := .uninitialized, err := .invalidKeyLength }

/-- R120: `r` after `INIT 32` is a function of KEY[0..3], and `s` of KEY[4..7]. -/
def Obligations.InitDependsOnTheStagedKeyAlone : Prop :=
  ∀ s t u v : State, exec (.init 32#8) s = .next u → exec (.init 32#8) t = .next v →
    ((∀ i : Fin 8, i.val < 4 → s.key.get i = t.key.get i) → u.r = v.r) ∧
    ((∀ i : Fin 8, 4 ≤ i.val → s.key.get i = t.key.get i) → u.s = v.s)

/-! ### The multiplier, ABSORB and ABSORBP -/

/-- R140: the contract of one absorption, and that what is stored was normalised before it was stored. -/
def Obligations.AbsorbStepMeetsItsContract : Prop :=
  ∀ (r x : LimbRegs) (n : Nat), n < 2 ^ 129 →
    let y := lastCarry (carryPass (carryPass (mulFold (limbAdd x.toVec (limbs n)) r.toVec)))
    (absorbStep r x n).value % (2 ^ 130 - 5) = (x.value + n) * r.value % (2 ^ 130 - 5) ∧
      y.x0 ≤ 0x3ffffff ∧ y.x1 ≤ 0x3ffffff ∧ y.x2 ≤ 0x3ffffff ∧ y.x3 ≤ 0x3ffffff ∧ y.x4 ≤ 0x3ffffff ∧
      absorbStep r x n = y.toRegs ∧ (absorbStep r x n).value < 2 ^ 130

/-- R143: the representative the datapath leaves is `fold(fold(D))`. -/
def Obligations.AbsorbStepIsTwoFolds : Prop :=
  ∀ (r x : LimbRegs) (n : Nat), n < 2 ^ 129 →
    let fold (v : Nat) := v % 2 ^ 130 + 5 * (v / 2 ^ 130)
    (absorbStep r x n).value = fold (fold (mulFold (limbAdd x.toVec (limbs n)) r.toVec).value)

/-- R142: the widths of the datapath are enough: 27-bit sums, 29-bit multiples, products below `2^56`, columns
and every partial sum `e` and carry `c` of pass 1 that fit the 64-bit accumulators, and the carries of pass 2. -/
def Obligations.DatapathFitsItsWidths : Prop :=
  ∀ (r x : LimbRegs) (n : Nat), n < 2 ^ 129 →
    let a := limbAdd x.toVec (limbs n)
    let q := r.toVec
    let d := mulFold a q
    let e0 := d.x0
    let e1 := d.x1 + e0 / 2 ^ 26
    let e2 := d.x2 + e1 / 2 ^ 26
    let e3 := d.x3 + e2 / 2 ^ 26
    let e4 := d.x4 + e3 / 2 ^ 26
    let y := carryPass d
    (a.x0 ≤ 2 ^ 27 - 2 ∧ a.x1 ≤ 2 ^ 27 - 2 ∧ a.x2 ≤ 2 ^ 27 - 2 ∧ a.x3 ≤ 2 ^ 27 - 2 ∧ a.x4 ≤ 2 ^ 27 - 2) ∧
    (q.x0 ≤ 2 ^ 26 - 1 ∧ ∀ v ∈ [q.x1, q.x2, q.x3, q.x4], v ≤ 2 ^ 26 - 1 ∧ 5 * v ≤ 5 * (2 ^ 26 - 1) ∧ 5 * v < 2 ^ 29) ∧
    (∀ u ∈ [a.x0, a.x1, a.x2, a.x3, a.x4], u * q.x0 < 2 ^ 56 ∧
      ∀ v ∈ [q.x1, q.x2, q.x3, q.x4], u * v < 2 ^ 56 ∧ u * (5 * v) < 2 ^ 56) ∧
    (d.x0 < 25 * 2 ^ 53 ∧ d.x1 < 25 * 2 ^ 53 ∧ d.x2 < 25 * 2 ^ 53 ∧ d.x3 < 25 * 2 ^ 53 ∧ d.x4 < 5 * 2 ^ 53) ∧
    (∀ e ∈ [e0, e1, e2, e3, e4], e < 2 ^ 59 ∧ e / 2 ^ 26 < 2 ^ 33) ∧
    (carryChain 0 d).2 = e4 / 2 ^ 26 ∧ e4 / 2 ^ 26 < 2 ^ 30 ∧ 5 * (e4 / 2 ^ 26) < 2 ^ 33 ∧
    y.x0 < 2 ^ 33 ∧ y.x0 / 2 ^ 26 < 2 ^ 7 ∧ (carryChain 0 y).2 ≤ 1

/-- R144: `ABSORB`, in every phase. -/
def Obligations.AbsorbFoldsTheFullBlock : Prop :=
  decode 0x00001002#32 = .ok .absorb ∧
  ∀ s : State,
    let B := (s.block.get 0).toNat + (s.block.get 1).toNat * 2 ^ 32 + (s.block.get 2).toNat * 2 ^ 64 +
      (s.block.get 3).toNat * 2 ^ 96
    (s.phase = .uninitialized → exec .absorb s = .next { s with err := .notInitialized }) ∧
    (s.phase ≠ .uninitialized → exec .absorb s = .next
      { s with h := absorbStep s.r s.h (B + 2 ^ 128), tag := 0#128, phase := .absorbing, err := .ok })

/-- R145: `ABSORBP len`, for every length 1 to 15, in every phase. -/
def Obligations.AbsorbpFoldsThePartialBlock : Prop :=
  ∀ len : BitVec 4, len ≠ 0#4 →
    decode (BitVec.ofNat 32 (0x00000012 + len.toNat * 0x100)) = .ok (.absorbp len) ∧
    ∀ s : State,
      let B := (s.block.get 0).toNat + (s.block.get 1).toNat * 2 ^ 32 + (s.block.get 2).toNat * 2 ^ 64 +
        (s.block.get 3).toNat * 2 ^ 96
      (s.phase = .uninitialized → exec (.absorbp len) s = .next { s with err := .notInitialized }) ∧
      (s.phase ≠ .uninitialized → exec (.absorbp len) s = .next
        { s with h := absorbStep s.r s.h (B % 2 ^ (8 * len.toNat) + 2 ^ (8 * len.toNat)), tag := 0#128,
                 phase := .absorbing, err := .ok })

/-- R134, R140 at the instructions: the accumulator after `ABSORB` and `ABSORBP` in integers modulo `p`. -/
def Obligations.AbsorptionMultipliesTheAccumulator : Prop :=
  ∀ s : State, s.phase ≠ .uninitialized →
    (∃ t, exec .absorb s = .next t ∧
      t.h.value % (2 ^ 130 - 5) = (s.h.value + (s.block.value + 2 ^ 128)) * s.r.value % (2 ^ 130 - 5)) ∧
    ∀ len : BitVec 4, len ≠ 0#4 → ∃ t, exec (.absorbp len) s = .next t ∧
      t.h.value % (2 ^ 130 - 5) =
        (s.h.value + (s.block.value % 2 ^ (8 * len.toNat) + 2 ^ (8 * len.toNat))) * s.r.value % (2 ^ 130 - 5)

/-- R132: the block bytes at `len` and above change nothing of what `ABSORBP len` and `FINALP len` do, for every
length 1 to 15. -/
def Obligations.BytesBeyondTheLengthAreIgnored : Prop :=
  ∀ (s : State) (b c : BlockRegs) (len : BitVec 4), len ≠ 0#4 →
    (∀ k, k < len.toNat → b.value / 2 ^ (8 * k) % 2 ^ 8 = c.value / 2 ^ (8 * k) % 2 ^ 8) →
    (∃ t : State, exec (.absorbp len) { s with block := b } = .next { t with block := b } ∧
      exec (.absorbp len) { s with block := c } = .next { t with block := c }) ∧
    ∃ t : State, exec (.finalp len) { s with block := b } = .next { t with block := b } ∧
      exec (.finalp len) { s with block := c } = .next { t with block := c }

/-- R132: one formula for full and partial blocks, and blocks that differ in length or in a data byte have
different integers. -/
def Obligations.BlockIntegersDoNotCollide : Prop :=
  (∀ b : BlockRegs, b.fullInteger = b.partialInteger 16) ∧
  ∀ (b c : BlockRegs) (l m : Nat), 1 ≤ l → l ≤ 16 → 1 ≤ m → m ≤ 16 →
    b.partialInteger l = c.partialInteger m →
      l = m ∧ ∀ k, k < l → b.value / 2 ^ (8 * k) % 2 ^ 8 = c.value / 2 ^ (8 * k) % 2 ^ 8

/-- R147: after `INIT 32` and absorptions of the block integers `ns` the accumulator is their polynomial in
`R`, modulo `p`. -/
def Obligations.AbsorptionsEvaluateThePolynomial : Prop :=
  ∀ (s t : State) (ns : List Nat), exec (.init 32#8) s = .next t → (∀ n ∈ ns, n < 2 ^ 129) →
    (ns.foldl (fun h n => absorbStep t.r h n) t.h).value % (2 ^ 130 - 5) =
      polyEval t.r.value ns % (2 ^ 130 - 5)

/-- R202, at the machine's own commands: after `INIT 32` and `ABSORB` of any list of blocks, `FINAL`, and
`FINALP` of any partial block, deliver the Poly1305 tag of the blocks' integers, whatever the state before. -/
def Obligations.CommandsComputeThePoly1305Tag : Prop :=
  ∀ (s : State) (bs : List BlockRegs),
    ∃ t u v, exec (.init 32#8) s = .next t ∧ absorbBlocks bs t = .next u ∧ exec .final u = .next v ∧
      v.tag.toNat = referenceTag (s.key.rHalf &&& 0x0ffffffc0ffffffc0ffffffc0fffffff) s.key.sHalf
        (bs.map fun b => b.value + 2 ^ 128) ∧
      ∀ (b : BlockRegs) (len : BitVec 4), len ≠ 0#4 → ∃ x, exec (.finalp len) { u with block := b } = .next x ∧
        x.tag.toNat = referenceTag (s.key.rHalf &&& 0x0ffffffc0ffffffc0ffffffc0fffffff) s.key.sHalf
          ((bs.map fun b => b.value + 2 ^ 128) ++
            [b.value % 2 ^ (8 * len.toNat) + 2 ^ (8 * len.toNat)])

/-- R118: with a multiplier of 0 every absorption, full or partial, gives an accumulator of 0, and every tag,
of `FINAL` after an absorption, of `FINAL` on the accumulator 0 and of `FINALP`, is the mask. -/
def Obligations.ZeroMultiplierGivesTheMask : Prop :=
  ∀ s : State, s.phase ≠ .uninitialized → s.r.value = 0 →
    (∃ t u, exec .absorb s = .next t ∧ t.h.value = 0 ∧ exec .final t = .next u ∧ u.tag = s.s) ∧
    (s.h.value = 0 → ∃ t, exec .final s = .next t ∧ t.tag = s.s) ∧
    ∀ len : BitVec 4, len ≠ 0#4 →
      (∃ t u, exec (.absorbp len) s = .next t ∧ t.h.value = 0 ∧ exec .final t = .next u ∧ u.tag = s.s) ∧
      ∃ t, exec (.finalp len) s = .next t ∧ t.tag = s.s

/-! ### The finalization adder, FINAL and FINALP -/

/-- R172: the candidate and its carry. -/
def Obligations.CandidateSubtractsThePrime : Prop :=
  ∀ x : LimbRegs,
    (candidate x).1.value = (x.value + 5) % 2 ^ 130 ∧
    ((candidate x).2 = 0 ∨ (candidate x).2 = 1) ∧
    ((candidate x).2 = 1 → (candidate x).1.value + (2 ^ 130 - 5) = x.value) ∧
    ((candidate x).2 = 0 → x.value < 2 ^ 130 - 5)

/-- R171, R173: the canonical value is the residue. -/
def Obligations.CanonIsTheResidue : Prop :=
  ∀ x : LimbRegs,
    canon x = x.value % (2 ^ 130 - 5) ∧ canon x < 2 ^ 130 - 5 ∧
    canon x = (if 2 ^ 130 - 5 ≤ x.value then x.value - (2 ^ 130 - 5) else x.value) ∧
    (2 ^ 130 - 5 ≤ x.value ↔ 2 ^ 130 ≤ x.value + 5)

/-- R174: the pad addition modulo `2^128`, and its equivalent as a chain of four 32-bit adders. -/
def Obligations.PadAdditionIsAChainOfWordAdders : Prop :=
  ∀ (F : Nat) (s : Wide), F < 2 ^ 130 - 5 →
    let w (i : Nat) := F / 2 ^ (32 * i) % 2 ^ 32
    let m (i : Nat) := s.toNat / 2 ^ (32 * i) % 2 ^ 32
    let e0 := w 0 + m 0
    let e1 := w 1 + m 1 + e0 / 2 ^ 32
    let e2 := w 2 + m 2 + e1 / 2 ^ 32
    let e3 := w 3 + m 3 + e2 / 2 ^ 32
    (padAdd F s).toNat = (F + s.toNat) % 2 ^ 128 ∧
      (padAdd F s).toNat = e0 % 2 ^ 32 + e1 % 2 ^ 32 * 2 ^ 32 + e2 % 2 ^ 32 * 2 ^ 64 + e3 % 2 ^ 32 * 2 ^ 96

/-- R176: `FINAL`, in every phase: the tag is `((V(h) mod p) + s) mod 2^128` and `h`, `r`, `s` are not written. -/
def Obligations.FinalDeliversTheTag : Prop :=
  decode 0x00000003#32 = .ok .final ∧
  ∀ s : State,
    (s.phase = .uninitialized → exec .final s = .next { s with err := .notInitialized }) ∧
    (s.phase ≠ .uninitialized → exec .final s = .next
      { s with tag := BitVec.ofNat 128 (s.h.value % (2 ^ 130 - 5) + s.s.toNat), phase := .finalized, err := .ok })

/-- R177: `FINALP len`, for every length 1 to 15, in every phase: the tag of a copy that absorbed the block. -/
def Obligations.FinalpDeliversTheTagOfACopy : Prop :=
  ∀ len : BitVec 4, len ≠ 0#4 →
    decode (BitVec.ofNat 32 (0x00000013 + len.toNat * 0x100)) = .ok (.finalp len) ∧
    ∀ s : State,
      let B := (s.block.get 0).toNat + (s.block.get 1).toNat * 2 ^ 32 + (s.block.get 2).toNat * 2 ^ 64 +
        (s.block.get 3).toNat * 2 ^ 96
      let copy := absorbStep s.r s.h (B % 2 ^ (8 * len.toNat) + 2 ^ (8 * len.toNat))
      (s.phase = .uninitialized → exec (.finalp len) s = .next { s with err := .notInitialized }) ∧
      (s.phase ≠ .uninitialized → exec (.finalp len) s = .next
        { s with tag := BitVec.ofNat 128 (copy.value % (2 ^ 130 - 5) + s.s.toNat), phase := .finalized, err := .ok })

/-- R177, R134: the tag of `FINALP` in integers alone. -/
def Obligations.FinalpTagInIntegers : Prop :=
  ∀ (s : State) (len : BitVec 4), len ≠ 0#4 → s.phase ≠ .uninitialized →
    ∃ t, exec (.finalp len) s = .next t ∧
      t.tag.toNat = ((s.h.value + (s.block.value % 2 ^ (8 * len.toNat) + 2 ^ (8 * len.toNat))) * s.r.value %
        (2 ^ 130 - 5) + s.s.toNat) % 2 ^ 128

/-- R177, R145: `FINALP len` delivers the tag that `ABSORBP len` and then `FINAL` deliver, and, unlike them,
keeps `h`. -/
def Obligations.FinalpAgreesWithAbsorbpThenFinal : Prop :=
  ∀ (s : State) (len : BitVec 4), len ≠ 0#4 → s.phase ≠ .uninitialized →
    ∃ t u v, exec (.absorbp len) s = .next t ∧ exec .final t = .next u ∧ exec (.finalp len) s = .next v ∧
      v = { u with h := s.h }

/-- R178: a second `FINAL`, or a second `FINALP len`, changes nothing. -/
def Obligations.FinalizationIsRepeatable : Prop :=
  ∀ s : State, s.phase ≠ .uninitialized →
    (∃ t, exec .final s = .next t ∧ exec .final t = .next t ∧ t.h = s.h ∧ t.r = s.r ∧ t.s = s.s) ∧
    ∀ len : BitVec 4, len ≠ 0#4 → ∃ t, exec (.finalp len) s = .next t ∧ exec (.finalp len) t = .next t ∧
      t.h = s.h ∧ t.r = s.r ∧ t.s = s.s

/-- R179: `INIT 32` then `FINAL` delivers the second half of the key. -/
def Obligations.EmptyMessageTagIsTheMask : Prop :=
  ∀ s : State, ∃ t u, exec (.init 32#8) s = .next t ∧ exec .final t = .next u ∧
    u.tag.toNat = (s.key.get 4).toNat + (s.key.get 5).toNat * 2 ^ 32 + (s.key.get 6).toNat * 2 ^ 64 +
      (s.key.get 7).toNat * 2 ^ 96 ∧ u.phase = .finalized ∧ u.err = .ok

/-! ### Responses and phases -/

/-- R234: the four data commands before a key was accepted answer `NotInitialized` and change nothing else. -/
def Obligations.DataCommandsNeedAKey : Prop :=
  ∀ (s : State) (i : Instr), i.WellFormed → (∀ klen, i ≠ .init klen) → s.phase = .uninitialized →
    exec i s = .next { s with err := .notInitialized }

/-- R239: with a key accepted the four data commands succeed, and the key stays accepted. -/
def Obligations.LiveDataCommandsSucceed : Prop :=
  ∀ (s : State) (i : Instr), i.WellFormed → (∀ klen, i ≠ .init klen) → s.phase ≠ .uninitialized →
    ∃ t, exec i s = .next t ∧ t.err = .ok ∧ t.phase ≠ .uninitialized ∧ t.r = s.r ∧ t.s = s.s ∧
      t.key = s.key ∧ t.block = s.block

/-- R232: the order of the checks of a command word; the first that applies gives the response. -/
def Obligations.ResponseFollowsTheOrderOfChecks : Prop :=
  ∀ (s : State) (w : Word) (rest : List HostEvent), s.port = .write 4 0x00 w :: rest →
    ∃ t, step s = .next t ∧
      let OP := w.toNat % 2 ^ 4
      let LEN := w.toNat / 2 ^ 8 % 2 ^ 8
      (ListedIllegal w.toNat → t.err = .illegalCommand) ∧
      (¬ ListedIllegal w.toNat → OP = 1 → LEN ≠ 32 → t.err = .invalidKeyLength) ∧
      (¬ ListedIllegal w.toNat → OP ≠ 1 → s.phase = .uninitialized → t.err = .notInitialized) ∧
      (¬ ListedIllegal w.toNat → (OP = 1 → LEN = 32) → (OP ≠ 1 → s.phase ≠ .uninitialized) → t.err = .ok)

/-- R39: the phase after every command word in every phase. -/
def Obligations.PhaseTransitionTable : Prop :=
  ∀ (s : State) (w : Word) (rest : List HostEvent), s.port = .write 4 0x00 w :: rest →
    ∃ t, step s = .next t ∧
      let OP := w.toNat % 2 ^ 4
      let LEN := w.toNat / 2 ^ 8 % 2 ^ 8
      (ListedIllegal w.toNat → t.phase = s.phase ∧ t.err = .illegalCommand) ∧
      (¬ ListedIllegal w.toNat →
        (OP = 1 → LEN = 32 → t.phase = .initialized ∧ t.err = .ok) ∧
        (OP = 1 → LEN ≠ 32 → t.phase = .uninitialized ∧ t.err = .invalidKeyLength) ∧
        (OP ≠ 1 → s.phase = .uninitialized → t.phase = .uninitialized ∧ t.err = .notInitialized) ∧
        (OP = 2 → s.phase ≠ .uninitialized → t.phase = .absorbing ∧ t.err = .ok) ∧
        (OP = 3 → s.phase ≠ .uninitialized → t.phase = .finalized ∧ t.err = .ok))

/-- R233: the complete effect of a write of any word to CMD, in any state. -/
def Obligations.CompleteCommandFunction : Prop :=
  ∀ (s : State) (w : Word) (rest : List HostEvent), s.port = .write 4 0x00 w :: rest →
    let u : State := { s with port := rest, reply := .accepted }
    let OP := w.toNat % 2 ^ 4
    let FP := w.toNat / 2 ^ 4 % 2
    let LEN := w.toNat / 2 ^ 8 % 2 ^ 8
    let n (L : Nat) := s.block.value % 2 ^ (8 * L) + 2 ^ (8 * L)
    (ListedIllegal w.toNat → step s = .next { u with err := .illegalCommand }) ∧
    (¬ ListedIllegal w.toNat →
      (OP = 1 → LEN ≠ 32 → step s = .next { u with r := .zero, s := 0#128, h := .zero, tag := 0#128,
                                                    phase := .uninitialized, err := .invalidKeyLength }) ∧
      (OP = 1 → LEN = 32 → step s = .next
        { u with r := (limbs (s.key.rHalf &&& 0x0ffffffc0ffffffc0ffffffc0fffffff)).toRegs,
                 s := BitVec.ofNat 128 s.key.sHalf, h := .zero, tag := 0#128, phase := .initialized, err := .ok }) ∧
      (OP ≠ 1 → s.phase = .uninitialized → step s = .next { u with err := .notInitialized }) ∧
      (s.phase ≠ .uninitialized →
        (OP = 2 → FP = 0 → step s = .next
          { u with h := absorbStep s.r s.h (n 16), tag := 0#128, phase := .absorbing, err := .ok }) ∧
        (OP = 2 → FP = 1 → step s = .next
          { u with h := absorbStep s.r s.h (n LEN), tag := 0#128, phase := .absorbing, err := .ok }) ∧
        (OP = 3 → FP = 0 → step s = .next
          { u with tag := BitVec.ofNat 128 (canon s.h + s.s.toNat), phase := .finalized, err := .ok }) ∧
        (OP = 3 → FP = 1 → step s = .next
          { u with tag := BitVec.ofNat 128 (canon (absorbStep s.r s.h (n LEN)) + s.s.toNat),
                   phase := .finalized, err := .ok })))

/-- Log entry 8, the model's choice: a term that stands for an illegal word is answered as that word is. -/
def Obligations.IllFormedTermsAreIllegalCommands : Prop :=
  ∀ (s : State) (i : Instr), ¬ i.WellFormed → exec i s = .next { s with err := .illegalCommand }

/-! ### The host's notation -/

/-- R89, R54: performing `LDKEY k` stages the key and touches nothing else of the engine. -/
def Obligations.LdkeyStagesTheKey : Prop :=
  ∀ (s : State) (k : List Byte) (rest : List HostEvent), k.length = 32 → s.port = ldkey k ++ rest →
    ∃ t, Sys2Proof.core.run 8 s = .next t ∧
      t = { s with key := t.key, port := rest, reply := .accepted } ∧
      t.key.rHalf = leValue (k.take 16) ∧ t.key.sHalf = leValue (k.drop 16)

/-- R209, R203 at the engine: from every state, `New` with a 32-byte key, any writes in any chunks, empty ones too,
with any `Sum` calls between them, and a last `Sum`: the run answers next, with `Poly1305` of the key and of the
bytes written in TAG, phase Finalized and response OK; and the last four reads of that run, `RDTAG`, answer its
four words. The accesses stand at the head of the port of log entry 1. -/
def Obligations.AdapterSessionDeliversPoly1305 : Prop :=
  ∀ (s : State) (key : List Byte) (calls : List AdapterCall) (rest : List HostEvent), key.length = 32 →
    s.port = adapterSession key calls ++ rest →
      let tag := poly1305 key (calls.flatMap AdapterCall.bytes)
      let steps := (adapterSession key calls).length
      (∃ t, Sys2Proof.core.run steps s = .next t ∧ t.tag.toNat = leValue tag ∧ t.phase = .finalized ∧
        t.err = .ok ∧ t.port = rest) ∧
      ∀ i : Fin 4, ∃ t, Sys2Proof.core.run (steps - 3 + i.val) s = .next t ∧
        t.reply = .value (BitVec.ofNat 32 (leValue ((tag.drop (4 * i.val)).take 4)))

/-- R203, R205: what `New`, any writes and `Sum` send is the canonical program of the bytes written, however they
are split into writes: every block once, in order and whole, and the bytes left by `FINALP`. -/
def Obligations.WritesSendTheCanonicalProgram : Prop :=
  ∀ (key : List Byte) (chunks : List (List Byte)), key.length = 32 →
    adapterSession key (chunks.map .write) = canonicalProgram key chunks.flatten

/-- R204: `New` with a key of any other length, whatever its length modulo 256, is refused by the engine, which
is torn down. -/
def Obligations.NewWithAnotherLengthIsRefused : Prop :=
  ∀ (s : State) (key : List Byte) (rest : List HostEvent), key.length ≠ 32 → s.port = adapterNew key ++ rest →
    ∃ t, Sys2Proof.core.run (adapterNew key).length s = .next t ∧ t.err = .invalidKeyLength ∧
      t.phase = .uninitialized ∧ t.r.value = 0 ∧ t.s = 0#128 ∧ t.h.value = 0 ∧ t.tag = 0#128 ∧
      t.block = s.block ∧ t.port = rest
end

