-- ==== Sys2Proof/Laws/Bytes.lean ====
section
/-! SUPPORT. Byte strings as little-endian integers, and their words. -/

namespace Sys2Proof.Machine

theorem leValue_append (a b : List Byte) : leValue (a ++ b) = leValue a + 2 ^ (8 * a.length) * leValue b := by
  induction a with
  | nil => simp [leValue]
  | cons x a ih =>
    simp only [List.cons_append, leValue, ih, List.length_cons]
    ring

theorem leValue_lt (a : List Byte) : leValue a < 2 ^ (8 * a.length) := by
  induction a with
  | nil => simp [leValue]
  | cons x a ih =>
    have hx := x.isLt
    simp only [leValue, List.length_cons, show 8 * (a.length + 1) = 8 + 8 * a.length by ring, pow_add]
    omega

/-- A word staged from four bytes holds their value (`20_memory.md` R54). -/
theorem byteWord_toNat (b : List Byte) (i : Nat) : (byteWord b i).toNat = leValue ((b.drop (4 * i)).take 4) := by
  have h := leValue_lt ((b.drop (4 * i)).take 4)
  have hl : ((b.drop (4 * i)).take 4).length ≤ 4 := List.length_take_le ..
  have hp : 2 ^ (8 * ((b.drop (4 * i)).take 4).length) ≤ 2 ^ 32 := Nat.pow_le_pow_right (by decide) (by omega)
  rw [byteWord, BitVec.toNat_ofNat, Nat.mod_eq_of_lt (h.trans_le hp)]

/-- Sixteen bytes are four words (R54). -/
theorem wordsValue_byteWord {b : List Byte} {i : Nat} (h : 4 * (i + 4) ≤ b.length) :
    wordsValue (byteWord b i) (byteWord b (i + 1)) (byteWord b (i + 2)) (byteWord b (i + 3)) =
      leValue ((b.drop (4 * i)).take 16) := by
  have split (c : List Byte) (n : Nat) (hc : 4 ≤ c.length) :
      leValue (c.take (4 + n)) = leValue (c.take 4) + 2 ^ 32 * leValue ((c.drop 4).take n) := by
    rw [List.take_add, leValue_append, List.length_take, Nat.min_eq_left hc]
  have hd (k : Nat) : 4 * (i + (k + 1)) = 4 * (i + k) + 4 := by ring
  rw [split _ 12 (by rw [List.length_drop]; omega), List.drop_drop, split _ 8 (by rw [List.length_drop]; omega),
    List.drop_drop, split _ 4 (by rw [List.length_drop]; omega), List.drop_drop]
  simp only [wordsValue, byteWord_toNat, show 4 * (i + 1) = 4 * i + 4 by ring,
    show 4 * (i + 2) = 4 * i + 4 + 4 by ring, show 4 * (i + 3) = 4 * i + 4 + 4 + 4 by ring]
  ring

@[simp] theorem leValue_replicate_zero (n : Nat) : leValue (List.replicate n 0#8) = 0 := by
  induction n with
  | zero => rfl
  | succ n ih => simp [List.replicate_succ, leValue, ih]

@[simp] theorem leBytes_length (L v : Nat) : (leBytes L v).length = L := by
  induction L generalizing v with
  | zero => rfl
  | succ L ih => simp [leBytes, ih]

/-- `LE` undoes `LEbytes_L` (`00_scope.md` R12). -/
theorem leValue_leBytes (L v : Nat) : leValue (leBytes L v) = v % 2 ^ (8 * L) := by
  induction L generalizing v with
  | zero => simp [leBytes, leValue, Nat.mod_one]
  | succ L ih =>
    simp only [leBytes, leValue, ih, BitVec.toNat_ofNat]
    rw [show 8 * (L + 1) = 8 + 8 * L by ring, pow_add, Nat.mod_mul]

end Sys2Proof.Machine
end

