-- ==== Sys2Proof/Laws/State.lean ====
section
/-! SUPPORT. What each named update of the state does to each field, so that no later proof unfolds a
record update. -/

namespace Sys2Proof.Machine

@[simp] theorem State.respond_phase (e : Response) (m : State) : (m.respond e).phase = m.phase := rfl
@[simp] theorem State.respond_err (e : Response) (m : State) : (m.respond e).err = e := rfl
@[simp] theorem State.respond_r (e : Response) (m : State) : (m.respond e).r = m.r := rfl
@[simp] theorem State.respond_s (e : Response) (m : State) : (m.respond e).s = m.s := rfl
@[simp] theorem State.respond_h (e : Response) (m : State) : (m.respond e).h = m.h := rfl
@[simp] theorem State.respond_tag (e : Response) (m : State) : (m.respond e).tag = m.tag := rfl
@[simp] theorem State.respond_key (e : Response) (m : State) : (m.respond e).key = m.key := rfl
@[simp] theorem State.respond_block (e : Response) (m : State) : (m.respond e).block = m.block := rfl
@[simp] theorem State.respond_port (e : Response) (m : State) : (m.respond e).port = m.port := rfl
@[simp] theorem State.respond_reply (e : Response) (m : State) : (m.respond e).reply = m.reply := rfl

@[simp] theorem State.acceptKey_phase (m : State) : (m.acceptKey).phase = .initialized := rfl
@[simp] theorem State.acceptKey_err (m : State) : (m.acceptKey).err = .ok := rfl
@[simp] theorem State.acceptKey_r (m : State) : (m.acceptKey).r = (limbs m.key.clamped.toNat).toRegs := rfl
@[simp] theorem State.acceptKey_s (m : State) : (m.acceptKey).s = BitVec.ofNat 128 m.key.sHalf := rfl
@[simp] theorem State.acceptKey_h (m : State) : (m.acceptKey).h = .zero := rfl
@[simp] theorem State.acceptKey_tag (m : State) : (m.acceptKey).tag = 0#128 := rfl
@[simp] theorem State.acceptKey_key (m : State) : (m.acceptKey).key = m.key := rfl
@[simp] theorem State.acceptKey_block (m : State) : (m.acceptKey).block = m.block := rfl
@[simp] theorem State.acceptKey_port (m : State) : (m.acceptKey).port = m.port := rfl
@[simp] theorem State.acceptKey_reply (m : State) : (m.acceptKey).reply = m.reply := rfl

@[simp] theorem State.refuseKey_phase (m : State) : (m.refuseKey).phase = .uninitialized := rfl
@[simp] theorem State.refuseKey_err (m : State) : (m.refuseKey).err = .invalidKeyLength := rfl
@[simp] theorem State.refuseKey_r (m : State) : (m.refuseKey).r = .zero := rfl
@[simp] theorem State.refuseKey_s (m : State) : (m.refuseKey).s = 0#128 := rfl
@[simp] theorem State.refuseKey_h (m : State) : (m.refuseKey).h = .zero := rfl
@[simp] theorem State.refuseKey_tag (m : State) : (m.refuseKey).tag = 0#128 := rfl
@[simp] theorem State.refuseKey_key (m : State) : (m.refuseKey).key = m.key := rfl
@[simp] theorem State.refuseKey_block (m : State) : (m.refuseKey).block = m.block := rfl
@[simp] theorem State.refuseKey_port (m : State) : (m.refuseKey).port = m.port := rfl
@[simp] theorem State.refuseKey_reply (m : State) : (m.refuseKey).reply = m.reply := rfl

@[simp] theorem State.accumulate_phase (h' : LimbRegs) (m : State) : (m.accumulate h').phase = .absorbing := rfl
@[simp] theorem State.accumulate_err (h' : LimbRegs) (m : State) : (m.accumulate h').err = .ok := rfl
@[simp] theorem State.accumulate_r (h' : LimbRegs) (m : State) : (m.accumulate h').r = m.r := rfl
@[simp] theorem State.accumulate_s (h' : LimbRegs) (m : State) : (m.accumulate h').s = m.s := rfl
@[simp] theorem State.accumulate_h (h' : LimbRegs) (m : State) : (m.accumulate h').h = h' := rfl
@[simp] theorem State.accumulate_tag (h' : LimbRegs) (m : State) : (m.accumulate h').tag = 0#128 := rfl
@[simp] theorem State.accumulate_key (h' : LimbRegs) (m : State) : (m.accumulate h').key = m.key := rfl
@[simp] theorem State.accumulate_block (h' : LimbRegs) (m : State) : (m.accumulate h').block = m.block := rfl
@[simp] theorem State.accumulate_port (h' : LimbRegs) (m : State) : (m.accumulate h').port = m.port := rfl
@[simp] theorem State.accumulate_reply (h' : LimbRegs) (m : State) : (m.accumulate h').reply = m.reply := rfl

@[simp] theorem State.deliver_phase (T : Wide) (m : State) : (m.deliver T).phase = .finalized := rfl
@[simp] theorem State.deliver_err (T : Wide) (m : State) : (m.deliver T).err = .ok := rfl
@[simp] theorem State.deliver_r (T : Wide) (m : State) : (m.deliver T).r = m.r := rfl
@[simp] theorem State.deliver_s (T : Wide) (m : State) : (m.deliver T).s = m.s := rfl
@[simp] theorem State.deliver_h (T : Wide) (m : State) : (m.deliver T).h = m.h := rfl
@[simp] theorem State.deliver_tag (T : Wide) (m : State) : (m.deliver T).tag = T := rfl
@[simp] theorem State.deliver_key (T : Wide) (m : State) : (m.deliver T).key = m.key := rfl
@[simp] theorem State.deliver_block (T : Wide) (m : State) : (m.deliver T).block = m.block := rfl
@[simp] theorem State.deliver_port (T : Wide) (m : State) : (m.deliver T).port = m.port := rfl
@[simp] theorem State.deliver_reply (T : Wide) (m : State) : (m.deliver T).reply = m.reply := rfl

@[simp] theorem State.stageBlock_phase (i : Fin 4) (v : Word) (m : State) : (m.stageBlock i v).phase = m.phase := rfl
@[simp] theorem State.stageBlock_err (i : Fin 4) (v : Word) (m : State) : (m.stageBlock i v).err = m.err := rfl
@[simp] theorem State.stageBlock_r (i : Fin 4) (v : Word) (m : State) : (m.stageBlock i v).r = m.r := rfl
@[simp] theorem State.stageBlock_s (i : Fin 4) (v : Word) (m : State) : (m.stageBlock i v).s = m.s := rfl
@[simp] theorem State.stageBlock_h (i : Fin 4) (v : Word) (m : State) : (m.stageBlock i v).h = m.h := rfl
@[simp] theorem State.stageBlock_tag (i : Fin 4) (v : Word) (m : State) : (m.stageBlock i v).tag = m.tag := rfl
@[simp] theorem State.stageBlock_key (i : Fin 4) (v : Word) (m : State) : (m.stageBlock i v).key = m.key := rfl
@[simp] theorem State.stageBlock_block (i : Fin 4) (v : Word) (m : State) : (m.stageBlock i v).block = m.block.set i v := rfl
@[simp] theorem State.stageBlock_port (i : Fin 4) (v : Word) (m : State) : (m.stageBlock i v).port = m.port := rfl
@[simp] theorem State.stageBlock_reply (i : Fin 4) (v : Word) (m : State) : (m.stageBlock i v).reply = m.reply := rfl

@[simp] theorem State.stageKey_phase (i : Fin 8) (v : Word) (m : State) : (m.stageKey i v).phase = m.phase := rfl
@[simp] theorem State.stageKey_err (i : Fin 8) (v : Word) (m : State) : (m.stageKey i v).err = m.err := rfl
@[simp] theorem State.stageKey_r (i : Fin 8) (v : Word) (m : State) : (m.stageKey i v).r = m.r := rfl
@[simp] theorem State.stageKey_s (i : Fin 8) (v : Word) (m : State) : (m.stageKey i v).s = m.s := rfl
@[simp] theorem State.stageKey_h (i : Fin 8) (v : Word) (m : State) : (m.stageKey i v).h = m.h := rfl
@[simp] theorem State.stageKey_tag (i : Fin 8) (v : Word) (m : State) : (m.stageKey i v).tag = m.tag := rfl
@[simp] theorem State.stageKey_key (i : Fin 8) (v : Word) (m : State) : (m.stageKey i v).key = m.key.set i v := rfl
@[simp] theorem State.stageKey_block (i : Fin 8) (v : Word) (m : State) : (m.stageKey i v).block = m.block := rfl
@[simp] theorem State.stageKey_port (i : Fin 8) (v : Word) (m : State) : (m.stageKey i v).port = m.port := rfl
@[simp] theorem State.stageKey_reply (i : Fin 8) (v : Word) (m : State) : (m.stageKey i v).reply = m.reply := rfl

@[simp] theorem State.answer_phase (a : HostReply) (m : State) : (m.answer a).phase = m.phase := rfl
@[simp] theorem State.answer_err (a : HostReply) (m : State) : (m.answer a).err = m.err := rfl
@[simp] theorem State.answer_r (a : HostReply) (m : State) : (m.answer a).r = m.r := rfl
@[simp] theorem State.answer_s (a : HostReply) (m : State) : (m.answer a).s = m.s := rfl
@[simp] theorem State.answer_h (a : HostReply) (m : State) : (m.answer a).h = m.h := rfl
@[simp] theorem State.answer_tag (a : HostReply) (m : State) : (m.answer a).tag = m.tag := rfl
@[simp] theorem State.answer_key (a : HostReply) (m : State) : (m.answer a).key = m.key := rfl
@[simp] theorem State.answer_block (a : HostReply) (m : State) : (m.answer a).block = m.block := rfl
@[simp] theorem State.answer_port (a : HostReply) (m : State) : (m.answer a).port = m.port := rfl
@[simp] theorem State.answer_reply (a : HostReply) (m : State) : (m.answer a).reply = a := rfl

@[simp] theorem State.restart_phase (m : State) : (m.restart).phase = .uninitialized := rfl
@[simp] theorem State.restart_err (m : State) : (m.restart).err = .ok := rfl
@[simp] theorem State.restart_r (m : State) : (m.restart).r = .zero := rfl
@[simp] theorem State.restart_s (m : State) : (m.restart).s = 0#128 := rfl
@[simp] theorem State.restart_h (m : State) : (m.restart).h = .zero := rfl
@[simp] theorem State.restart_tag (m : State) : (m.restart).tag = 0#128 := rfl
@[simp] theorem State.restart_key (m : State) : (m.restart).key = State.reset.key := rfl
@[simp] theorem State.restart_block (m : State) : (m.restart).block = State.reset.block := rfl
@[simp] theorem State.restart_port (m : State) : (m.restart).port = m.port := rfl
@[simp] theorem State.restart_reply (m : State) : (m.restart).reply = .silent := rfl

end Sys2Proof.Machine
end

