-- ==== Sys2Proof/Laws/Ops.lean ====
section
/-! SUPPORT. One lemma for each shared operation, saying everything it can do. -/

namespace Sys2Proof.Machine

/-- Four words make a 128-bit integer. -/
theorem wordsValue_lt (w0 w1 w2 w3 : Word) : wordsValue w0 w1 w2 w3 < 2 ^ 128 := by
  have h0 := w0.isLt
  have h1 := w1.isLt
  have h2 := w2.isLt
  have h3 := w3.isLt
  simp only [wordsValue]
  omega

theorem BlockRegs.value_lt (b : BlockRegs) : b.value < 2 ^ 128 := wordsValue_lt ..
theorem KeyRegs.rHalf_lt (k : KeyRegs) : k.rHalf < 2 ^ 128 := wordsValue_lt ..
theorem KeyRegs.sHalf_lt (k : KeyRegs) : k.sHalf < 2 ^ 128 := wordsValue_lt ..

/-- A full block's integer is below `2^129` (`41_absorb.md` R130). -/
theorem BlockRegs.fullInteger_lt (b : BlockRegs) : b.fullInteger < 2 ^ 129 := by
  have h := b.value_lt
  simp only [BlockRegs.fullInteger]
  omega

/-- A partial block's integer is below `2^121` (`41_absorb.md` R131). -/
theorem BlockRegs.partialInteger_lt (b : BlockRegs) (len : BitVec 4) : b.partialInteger len.toNat < 2 ^ 121 := by
  have hl : 8 * len.toNat ≤ 120 := by have := len.isLt; omega
  have hp : 2 ^ (8 * len.toNat) ≤ 2 ^ 120 := Nat.pow_le_pow_right (by decide) hl
  have hm : b.value % 2 ^ (8 * len.toNat) < 2 ^ (8 * len.toNat) := Nat.mod_lt _ (Nat.two_pow_pos _)
  simp only [BlockRegs.partialInteger]
  omega

/-- Reading back a block register just written, and another one. -/
theorem BlockRegs.get_set (b : BlockRegs) (i j : Fin 4) (v : Word) :
    (b.set i v).get j = if j = i then v else b.get j := by
  fin_cases i <;> fin_cases j <;> rfl

/-- Reading back a key register just written, and another one. -/
theorem KeyRegs.get_set (k : KeyRegs) (i j : Fin 8) (v : Word) :
    (k.set i v).get j = if j = i then v else k.get j := by
  fin_cases i <;> fin_cases j <;> rfl

/-- The phase check either refuses the command or lets it have its effect. -/
theorem requireKey_cases (s t : State) :
    (s.phase = .uninitialized ∧ requireKey s t = s.respond .notInitialized) ∨
      (s.phase ≠ .uninitialized ∧ requireKey s t = t) := by
  by_cases h : s.phase = .uninitialized
  · exact .inl ⟨h, if_pos h⟩
  · exact .inr ⟨h, if_neg h⟩

@[simp] theorem requireKey_unkeyed {s : State} (t : State) (h : s.phase = .uninitialized) :
    requireKey s t = s.respond .notInitialized := if_pos h

@[simp] theorem requireKey_live {s : State} (t : State) (h : s.phase ≠ .uninitialized) : requireKey s t = t :=
  if_neg h

/-- An offset names a register exactly when it is that register's offset (`20_memory.md` R51). -/
theorem regAt_eq_some {off : Nat} {reg : Reg} : regAt off = some reg ↔ off = reg.offset := by
  constructor
  · intro h
    unfold regAt at h
    split at h <;> first | (cases h; rfl) | cases h
  · rintro rfl
    rcases reg with _ | _ | i | i | i
    · rfl
    · rfl
    · fin_cases i <;> rfl
    · fin_cases i <;> rfl
    · fin_cases i <;> rfl

/-- An access is accepted exactly when it is of 4 bytes at a register's offset (`20_memory.md` R55). -/
theorem checkAccess_eq_ok {size off : Nat} {reg : Reg} :
    checkAccess size off = .ok reg ↔ size = 4 ∧ off = reg.offset := by
  constructor
  · intro h
    unfold checkAccess at h
    split_ifs at h with hs hw hm
    cases hr : regAt off with
    | none => simp [hr] at h
    | some found =>
      simp only [hr, Except.ok.injEq] at h
      exact ⟨Decidable.not_not.1 hs, regAt_eq_some.1 (h ▸ hr)⟩
  · rintro ⟨rfl, rfl⟩
    rcases reg with _ | _ | i | i | i
    · rfl
    · rfl
    · fin_cases i <;> rfl
    · fin_cases i <;> rfl
    · fin_cases i <;> rfl

@[simp] theorem checkAccess_offset (reg : Reg) : checkAccess 4 reg.offset = .ok reg := checkAccess_eq_ok.2 ⟨rfl, rfl⟩

/-- The accepted accesses are those the check lets through (`20_memory.md` R55, R56). -/
theorem acceptedAccess_iff {size off : Nat} : AcceptedAccess size off ↔ ∃ reg, checkAccess size off = .ok reg := by
  constructor
  · rintro ⟨rfl, h1, h2, h3, h4⟩
    interval_cases off <;> simp_all <;> exact ⟨_, rfl⟩
  · rintro ⟨reg, h⟩
    obtain ⟨rfl, rfl⟩ := checkAccess_eq_ok.1 h
    rcases reg with _ | _ | i | i | i
    · decide
    · decide
    all_goals revert i; decide

theorem checkAccess_error_of_not_accepted {size off : Nat} (h : ¬ AcceptedAccess size off) :
    ∃ why, checkAccess size off = .error why := by
  cases hc : checkAccess size off with
  | ok reg => exact absurd (acceptedAccess_iff.2 ⟨reg, hc⟩) h
  | error why => exact ⟨why, rfl⟩

/-- An accepted write is settled at once, with nothing of the port taken, unless it is a write to CMD. -/
theorem writeReg_cases (s : State) (reg : Reg) (v : Word) :
    (reg = .cmd ∧ writeReg s reg v = .command v s) ∨
      ∃ t, writeReg s reg v = .settled t ∧ t.port = s.port ∧ t.reply = s.reply := by
  cases reg
  · exact .inl ⟨rfl, rfl⟩
  all_goals exact .inr ⟨_, rfl, rfl, rfl⟩

/-- Everything performing an event can come to. -/
theorem performEvent_cases (s : State) (e : HostEvent) :
    (e = .reset ∧ performEvent s e = .settled s.restart) ∨
    (∃ reg, e = .read 4 reg.offset ∧ performEvent s e = .settled (s.answer (.value (s.readReg reg)))) ∨
    (∃ reg v, e = .write 4 reg.offset v ∧ performEvent s e = writeReg (s.answer .accepted) reg v) ∨
    (∃ why, performEvent s e = .stopped (.hostAccessFault why (s.answer .hostAccessFault))) := by
  cases e with
  | reset => exact .inl ⟨rfl, rfl⟩
  | read size off =>
    cases h : checkAccess size off with
    | ok reg =>
      obtain ⟨rfl, rfl⟩ := checkAccess_eq_ok.1 h
      exact .inr (.inl ⟨reg, rfl, by simp [performEvent, h]⟩)
    | error why => exact .inr (.inr (.inr ⟨why, by simp [performEvent, h, malformed]⟩))
  | write size off v =>
    cases h : checkAccess size off with
    | ok reg =>
      obtain ⟨rfl, rfl⟩ := checkAccess_eq_ok.1 h
      exact .inr (.inr (.inl ⟨reg, v, rfl, by simp [performEvent, h]⟩))
    | error why => exact .inr (.inr (.inr ⟨why, by simp [performEvent, h, malformed]⟩))

end Sys2Proof.Machine
end

