-- ==== Sys2Proof/Laws/Step.lean ====
section
/-! SUPPORT. What a meaning, and what a step, can do. -/

namespace Sys2Proof.Machine

/-- The absorption of a data command: refused without a key, else as its block integer says. -/
theorem execAbsorb_cases (s : State) :
    (s.phase = .uninitialized ∧ exec .absorb s = .next (s.respond .notInitialized)) ∨
      (s.phase ≠ .uninitialized ∧
        exec .absorb s = .next (s.accumulate (absorbStep s.r s.h s.block.fullInteger))) :=
  (requireKey_cases s _).imp (And.imp_right (congrArg _)) (And.imp_right (congrArg _))

theorem execAbsorbp_cases {len : BitVec 4} (hl : len ≠ 0#4) (s : State) :
    (s.phase = .uninitialized ∧ exec (.absorbp len) s = .next (s.respond .notInitialized)) ∨
      (s.phase ≠ .uninitialized ∧
        exec (.absorbp len) s = .next (s.accumulate (absorbStep s.r s.h (s.block.partialInteger len.toNat)))) := by
  rw [show exec (.absorbp len) s = _ from if_neg hl]
  exact (requireKey_cases s _).imp (And.imp_right (congrArg _)) (And.imp_right (congrArg _))

theorem execFinal_cases (s : State) :
    (s.phase = .uninitialized ∧ exec .final s = .next (s.respond .notInitialized)) ∨
      (s.phase ≠ .uninitialized ∧ exec .final s = .next (s.deliver (padAdd (canon s.h) s.s))) :=
  (requireKey_cases s _).imp (And.imp_right (congrArg _)) (And.imp_right (congrArg _))

theorem execFinalp_cases {len : BitVec 4} (hl : len ≠ 0#4) (s : State) :
    (s.phase = .uninitialized ∧ exec (.finalp len) s = .next (s.respond .notInitialized)) ∨
      (s.phase ≠ .uninitialized ∧ exec (.finalp len) s = .next
        (s.deliver (padAdd (canon (absorbStep s.r s.h (s.block.partialInteger len.toNat))) s.s))) := by
  rw [show exec (.finalp len) s = _ from if_neg hl]
  exact (requireKey_cases s _).imp (And.imp_right (congrArg _)) (And.imp_right (congrArg _))

theorem exec_init_accepts (s : State) : exec (.init 32#8) s = .next s.acceptKey := rfl

theorem exec_init_refuses {klen : BitVec 8} (h : klen ≠ 32#8) (s : State) :
    exec (.init klen) s = .next s.refuseKey :=
  if_neg fun hk => h (BitVec.eq_of_toNat_eq hk)

/-- Everything a meaning can do: every instruction answers a next state, made by one of seven updates. -/
theorem exec_cases (i : Instr) (s : State) :
    (i = .init 32#8 ∧ exec i s = .next s.acceptKey) ∨
    (∃ klen, i = .init klen ∧ klen ≠ 32#8 ∧ exec i s = .next s.refuseKey) ∨
    (i.wellFormed = false ∧ exec i s = .next (execIllegal s)) ∨
    ((∀ klen, i ≠ .init klen) ∧ s.phase = .uninitialized ∧ exec i s = .next (s.respond .notInitialized)) ∨
    (∃ n, n < 2 ^ 129 ∧ (i = .absorb ∨ ∃ len, i = .absorbp len) ∧ s.phase ≠ .uninitialized ∧
      exec i s = .next (s.accumulate (absorbStep s.r s.h n))) ∨
    (∃ T, (i = .final ∨ ∃ len, i = .finalp len) ∧ s.phase ≠ .uninitialized ∧ exec i s = .next (s.deliver T)) := by
  cases i with
  | init klen =>
    by_cases h : klen = 32#8
    · exact .inl ⟨h ▸ rfl, h ▸ exec_init_accepts s⟩
    · exact .inr (.inl ⟨klen, rfl, h, exec_init_refuses h s⟩)
  | absorb =>
    obtain ⟨hp, he⟩ | ⟨hp, he⟩ := execAbsorb_cases s
    · exact .inr (.inr (.inr (.inl ⟨by simp, hp, he⟩)))
    · exact .inr (.inr (.inr (.inr (.inl ⟨_, s.block.fullInteger_lt, .inl rfl, hp, he⟩))))
  | absorbp len =>
    by_cases h : len = 0#4
    · exact .inr (.inr (.inl ⟨by simp [Instr.wellFormed, h], if_pos h⟩))
    · obtain ⟨hp, he⟩ | ⟨hp, he⟩ := execAbsorbp_cases h s
      · exact .inr (.inr (.inr (.inl ⟨by simp, hp, he⟩)))
      · exact .inr (.inr (.inr (.inr (.inl
          ⟨_, (s.block.partialInteger_lt len).trans (by decide), .inr ⟨len, rfl⟩, hp, he⟩))))
  | final =>
    obtain ⟨hp, he⟩ | ⟨hp, he⟩ := execFinal_cases s
    · exact .inr (.inr (.inr (.inl ⟨by simp, hp, he⟩)))
    · exact .inr (.inr (.inr (.inr (.inr ⟨_, .inl rfl, hp, he⟩))))
  | finalp len =>
    by_cases h : len = 0#4
    · exact .inr (.inr (.inl ⟨by simp [Instr.wellFormed, h], if_pos h⟩))
    · obtain ⟨hp, he⟩ | ⟨hp, he⟩ := execFinalp_cases h s
      · exact .inr (.inr (.inr (.inl ⟨by simp, hp, he⟩)))
      · exact .inr (.inr (.inr (.inr (.inr ⟨_, .inr ⟨len, rfl⟩, hp, he⟩))))

/-- No meaning touches the port or the port's answer. -/
theorem exec_port {i : Instr} {s t : State} (h : exec i s = .next t) : t.port = s.port ∧ t.reply = s.reply := by
  rcases exec_cases i s with h' | ⟨_, h'⟩ | h' | h' | ⟨_, h'⟩ | ⟨_, h'⟩
  · cases h'.2.symm.trans h
    exact ⟨rfl, rfl⟩
  · cases h'.2.2.symm.trans h
    exact ⟨rfl, rfl⟩
  · cases h'.2.symm.trans h
    exact ⟨rfl, rfl⟩
  · cases h'.2.2.symm.trans h
    exact ⟨rfl, rfl⟩
  · cases h'.2.2.2.symm.trans h
    exact ⟨rfl, rfl⟩
  · cases h'.2.2.symm.trans h
    exact ⟨rfl, rfl⟩

/-- A meaning always answers a next state. -/
theorem exec_next (i : Instr) (s : State) : ∃ t, exec i s = .next t := by
  rcases exec_cases i s with h | ⟨_, h⟩ | h | h | ⟨_, h⟩ | ⟨_, h⟩
  exacts [⟨_, h.2⟩, ⟨_, h.2.2⟩, ⟨_, h.2⟩, ⟨_, h.2.2⟩, ⟨_, h.2.2.2⟩, ⟨_, h.2.2⟩]

/-- Everything a step can do. -/
theorem step_cases (s : State) :
    (s.port = [] ∧ step s = .next s) ∨
    ∃ e rest, s.port = e :: rest ∧
      ((∃ t, performEvent { s with port := rest } e = .settled t ∧ step s = .next t) ∨
       (∃ f, performEvent { s with port := rest } e = .stopped f ∧ step s = .fault f) ∨
       (∃ w t i, performEvent { s with port := rest } e = .command w t ∧ decode w = .ok i ∧ step s = exec i t) ∨
       (∃ w t x, performEvent { s with port := rest } e = .command w t ∧ decode w = .error x ∧
          step s = .next (execIllegal t))) := by
  cases hp : s.port with
  | nil => exact .inl ⟨rfl, by simp [step, hp]⟩
  | cons e rest =>
    refine .inr ⟨e, rest, rfl, ?_⟩
    cases ha : performEvent { s with port := rest } e with
    | settled t => exact .inl ⟨t, rfl, by simp [step, hp, ha]⟩
    | stopped f => exact .inr (.inl ⟨f, rfl, by simp [step, hp, ha]⟩)
    | command w t =>
      cases hd : decode w with
      | ok i => exact .inr (.inr (.inl ⟨w, t, i, rfl, hd, by simp [step, hp, ha, hd]⟩))
      | error x => exact .inr (.inr (.inr ⟨w, t, x, rfl, hd, by simp [step, hp, ha, hd]⟩))

end Sys2Proof.Machine
end

