-- ==== Sys2Proof/Laws/HostProgram.lean ====
section
/-! SUPPORT. Running a list of accesses piece by piece, the pieces of the host's notation, and how Poly1305 in
integers grows with a message. -/

namespace Sys2Proof.Machine

/-- Performing the events `es` from `s`, whatever is pending behind them, leads to `t`. -/
def Performs (es : List HostEvent) (s t : State) : Prop :=
  ∀ rest, Sys2Proof.core.run es.length { s with port := es ++ rest } = .next { t with port := rest }

theorem core_run_succ (n : Nat) (s : State) :
    Sys2Proof.core.run (n + 1) s =
      match step s with
      | .next t => Sys2Proof.core.run n t
      | .fault f => .fault f
      | .refused f => .refused f := by
  cases h : step s <;> simp [Host.Core.run, Sys2Proof.core, h]

theorem core_run_add (m n : Nat) {s t : State} (h : Sys2Proof.core.run m s = .next t) :
    Sys2Proof.core.run (m + n) s = Sys2Proof.core.run n t := by
  induction m generalizing s with
  | zero => cases h; rw [Nat.zero_add]
  | succ m ih =>
    rw [Nat.succ_add, core_run_succ]
    rw [core_run_succ] at h
    cases hs : step s with
    | next u =>
      simp only [hs] at h ⊢
      exact ih h
    | fault f => simp [hs] at h
    | refused f => simp [hs] at h

theorem Performs.nil (s : State) : Performs [] s s := fun _ => rfl

theorem Performs.append {a b : List HostEvent} {s t u : State} (h : Performs a s t) (k : Performs b t u) :
    Performs (a ++ b) s u := by
  intro rest
  rw [List.append_assoc, List.length_append, core_run_add _ _ (h (b ++ rest)), k rest]

/-- One event, by the step it makes. -/
theorem Performs.of_step {e : HostEvent} {s t : State}
    (h : ∀ rest, step { s with port := e :: rest } = .next { t with port := rest }) : Performs [e] s t := by
  intro rest
  rw [List.singleton_append, List.length_singleton, core_run_succ, h rest]
  rfl

theorem performs_read (reg : Reg) (s : State) : Performs [rd reg] s (s.answer (.value (s.readReg reg))) := by
  apply Performs.of_step
  intro rest
  simp only [step, rd, performEvent, checkAccess_offset]
  cases reg <;> rfl

theorem performs_stageKey (i : Fin 8) (v : Word) (s : State) :
    Performs [wr (.key i) v] s ((s.answer .accepted).stageKey i v) := by
  apply Performs.of_step
  intro rest
  simp only [step, wr, performEvent, checkAccess_offset]
  rfl

theorem performs_stageBlock (i : Fin 4) (v : Word) (s : State) :
    Performs [wr (.block i) v] s ((s.answer .accepted).stageBlock i v) := by
  apply Performs.of_step
  intro rest
  simp only [step, wr, performEvent, checkAccess_offset]
  rfl

/-- The block that `LDBLK b` stages. -/
def blockOf (b : List Byte) : BlockRegs := ⟨byteWord b 0, byteWord b 1, byteWord b 2, byteWord b 3⟩

/-- The staged block is the integer of its bytes, the missing ones counting as 0 (`30_encoding.md` R89). -/
theorem blockOf_value {b : List Byte} (h : b.length ≤ 16) : (blockOf b).value = leValue b := by
  have padded (i : Nat) : byteWord b i = byteWord (b ++ List.replicate (16 - b.length) 0#8) i := by
    apply BitVec.eq_of_toNat_eq
    rw [byteWord_toNat, byteWord_toNat, List.drop_append, List.take_append, List.drop_replicate, List.take_replicate,
      leValue_append, leValue_replicate_zero, Nat.mul_zero, Nat.add_zero]
  have hw := wordsValue_byteWord (b := b ++ List.replicate (16 - b.length) 0#8) (i := 0) (by simp; omega)
  simp only [Nat.zero_add, Nat.mul_zero, List.drop_zero] at hw
  rw [BlockRegs.value, blockOf, padded 0, padded 1, padded 2, padded 3, hw, List.take_of_length_le (by simp; omega),
    leValue_append, leValue_replicate_zero, Nat.mul_zero, Nat.add_zero]

theorem ldblk_eq (b : List Byte) :
    ldblk b = [wr (.block 0) (byteWord b 0)] ++ ([wr (.block 1) (byteWord b 1)] ++
      ([wr (.block 2) (byteWord b 2)] ++ [wr (.block 3) (byteWord b 3)])) := by
  simp [ldblk, List.finRange_succ]

theorem performs_ldblk (b : List Byte) (s : State) : Performs (ldblk b) s { s with block := blockOf b, reply := .accepted } := by
  rw [ldblk_eq]
  have h := (performs_stageBlock 0 (byteWord b 0) s).append ((performs_stageBlock 1 (byteWord b 1) _).append
    ((performs_stageBlock 2 (byteWord b 2) _).append (performs_stageBlock 3 (byteWord b 3) _)))
  simpa only [State.stageBlock, State.answer, BlockRegs.set, blockOf] using h

theorem requireKey_withPort (s t : State) (p : List HostEvent) :
    requireKey { s with port := p } { t with port := p } = { requireKey s t with port := p } := by
  unfold requireKey
  split_ifs <;> rfl

/-- No meaning reads or writes the port. -/
theorem exec_withPort (i : Instr) (s : State) (p : List HostEvent) {t : State} (h : exec i s = .next t) :
    exec i { s with port := p } = .next { t with port := p } := by
  cases i with
  | init klen =>
    simp only [exec, execInit] at h ⊢
    split_ifs at h ⊢ <;> cases h <;> rfl
  | absorb =>
    cases h
    exact congrArg _ (requireKey_withPort s
      (s.accumulate (absorbStep s.r s.h s.block.fullInteger)) p)
  | absorbp len =>
    simp only [exec, execAbsorbp] at h ⊢
    split_ifs at h ⊢ <;> cases h
    · rfl
    · exact congrArg _ (requireKey_withPort s
      (s.accumulate (absorbStep s.r s.h (s.block.partialInteger len.toNat))) p)
  | final =>
    cases h
    exact congrArg _ (requireKey_withPort s
      (s.deliver (padAdd (canon s.h) s.s)) p)
  | finalp len =>
    simp only [exec, execFinalp] at h ⊢
    split_ifs at h ⊢ <;> cases h
    · rfl
    · exact congrArg _ (requireKey_withPort s
      (s.deliver (padAdd (canon (absorbStep s.r s.h (s.block.partialInteger len.toNat))) s.s)) p)

/-- A mnemonic line runs its instruction, where its word decodes to it. -/
theorem performs_issue {i : Instr} (hd : decode (encode i) = .ok i) {s t : State}
    (h : exec i (s.answer .accepted) = .next t) : Performs [issue i] s t := by
  apply Performs.of_step
  intro rest
  simp only [step, issue, wr, performEvent, checkAccess_offset, writeReg, hd]
  exact exec_withPort i _ rest h

/-! ### The adapter -/

/-- Bytes that do not complete a block are buffered and nothing is sent (R205). -/
theorem adapterWrite_short {buf bs : List Byte} (h : buf.length + bs.length < 16) :
    adapterWrite buf bs = ([], buf ++ bs) := by
  induction bs generalizing buf with
  | nil => simp [adapterWrite]
  | cons b bs ih =>
    rw [List.length_cons] at h
    have hp : adapterPush buf b = ([], buf ++ [b]) :=
      if_neg (by simp only [List.length_append, List.length_singleton, Config.blockSize]; omega)
    simp [adapterWrite, hp, ih (buf := buf ++ [b]) (by simp; omega)]

/-- The bytes that complete a block send it whole (R205). -/
theorem adapterWrite_completes {buf bs : List Byte} (hb : buf.length < 16) (h : buf.length + bs.length = 16) :
    adapterWrite buf bs = (ldblk (buf ++ bs) ++ [issue .absorb], []) := by
  induction bs generalizing buf with
  | nil => simp at h; omega
  | cons b bs ih =>
    rw [List.length_cons] at h
    by_cases hn : bs = []
    · subst hn
      simp at h
      simp [adapterWrite, adapterPush, Config.blockSize, h]
    · have : bs.length ≠ 0 := by simpa using hn
      have hp : adapterPush buf b = ([], buf ++ [b]) :=
        if_neg (by simp only [List.length_append, List.length_singleton, Config.blockSize]; omega)
      simp [adapterWrite, hp, ih (buf := buf ++ [b]) (by simp; omega) (by simp; omega)]

/-! ### Poly1305 in integers -/

@[simp] theorem messageIntegers_nil : messageIntegers [] = [] := rfl

/-- A full block's integer (`41_absorb.md` R130). -/
theorem messageIntegers_block {b : List Byte} (h : b.length = 16) : messageIntegers b = [leValue b + 2 ^ 128] := by
  simp [messageIntegers, h, List.take_of_length_le (le_of_eq h), show List.range 1 = [0] from rfl]

/-- A partial block's integer (`41_absorb.md` R131). -/
theorem messageIntegers_short {b : List Byte} (h : b.length < 16) (hb : b ≠ []) :
    messageIntegers b = [leValue b + 2 ^ (8 * b.length)] := by
  simp [messageIntegers, Nat.div_eq_of_lt h, Nat.mod_eq_of_lt h, hb]

/-- One more block integer is one more Horner step (`41_absorb.md` R134, R147). -/
theorem polyEval_concat (R : Nat) (ns : List Nat) (n : Nat) : polyEval R (ns ++ [n]) = (polyEval R ns + n) * R := by
  induction ns with
  | nil => simp [polyEval]
  | cons m ns ih =>
    simp only [List.cons_append, polyEval, ih, List.length_append, List.length_singleton]
    ring

/-- The integers of whole blocks, and then of what follows them (`43_host_access.md` R202). -/
theorem messageIntegers_append {a b : List Byte} (ha : a.length % 16 = 0) :
    messageIntegers (a ++ b) = messageIntegers a ++ messageIntegers b := by
  obtain ⟨q, hq⟩ : ∃ q, a.length = 16 * q := ⟨a.length / 16, by omega⟩
  have hd : (16 * q + b.length) / 16 = q + b.length / 16 := by omega
  have hm : (16 * q + b.length) % 16 = b.length % 16 := by omega
  simp only [messageIntegers, List.length_append, hq, hd, hm, Nat.mul_mod_right, if_true, List.append_nil,
    Nat.mul_div_cancel_left q (show 0 < 16 by decide), List.range_add, List.map_append, List.map_map, List.append_assoc]
  have h16 (i : Nat) : 16 * (q + i) = a.length + 16 * i := by omega
  have hn (i : Nat) : a.drop (a.length + 16 * i) = [] := List.drop_eq_nil_of_le (Nat.le_add_right ..)
  have e1 : List.map (fun i => leValue ((List.drop (16 * i) (a ++ b)).take 16) + 2 ^ 128) (List.range q) =
      List.map (fun i => leValue ((List.drop (16 * i) a).take 16) + 2 ^ 128) (List.range q) := by
    apply List.map_congr_left
    intro i hi
    rw [List.mem_range] at hi
    rw [List.drop_append_of_le_length (by omega), List.take_append_of_le_length (by rw [List.length_drop]; omega)]
  rw [e1]
  congr 2
  · apply List.map_congr_left
    intro i _
    rw [Function.comp_apply, h16, List.drop_append]
    simp [hn]
  · rw [h16, List.drop_append]
    simp [hn]

end Sys2Proof.Machine
end

