-- ==== Sys2Proof/Laws/Limbs.lean ====
section
/-! SUPPORT. The limb representation and the stages of the datapath: one value lemma and one bound lemma
for each. -/

namespace Sys2Proof.Machine

/-- Splitting an integer into limbs keeps its value (`00_scope.md` R13). -/
theorem limbs_value (v : Nat) : (limbs v).value = v := by
  simp only [LimbVec.value, limbs]
  omega

/-- A normalised vector of R13. -/
def LimbVec.Normalised (x : LimbVec) : Prop :=
  x.x0 < 2 ^ 26 ∧ x.x1 < 2 ^ 26 ∧ x.x2 < 2 ^ 26 ∧ x.x3 < 2 ^ 26 ∧ x.x4 < 2 ^ 26

theorem limbs_normalised {v : Nat} (h : v < 2 ^ 130) : (limbs v).Normalised := by
  simp only [LimbVec.Normalised, limbs]
  omega

/-- Stored limbs are normalised. -/
theorem LimbRegs.toVec_normalised (x : LimbRegs) : x.toVec.Normalised :=
  ⟨x.l0.isLt, x.l1.isLt, x.l2.isLt, x.l3.isLt, x.l4.isLt⟩

/-- A normalised vector is below `2^130` (R13). -/
theorem LimbVec.Normalised.value_lt {x : LimbVec} (h : x.Normalised) : x.value < 2 ^ 130 := by
  obtain ⟨h0, h1, h2, h3, h4⟩ := h
  simp only [LimbVec.value]
  omega

@[simp] theorem LimbRegs.value_zero : LimbRegs.zero.value = 0 := rfl

/-- Stored limbs are their value: equal values, equal limbs. -/
theorem LimbRegs.ext_value {x y : LimbRegs} (h : x.value = y.value) : x = y := by
  obtain ⟨a0, a1, a2, a3, a4⟩ := x
  obtain ⟨b0, b1, b2, b3, b4⟩ := y
  have := a0.isLt
  have := a1.isLt
  have := a2.isLt
  have := a3.isLt
  have := b0.isLt
  have := b1.isLt
  have := b2.isLt
  have := b3.isLt
  simp only [LimbRegs.value, LimbRegs.toVec, LimbVec.value] at h
  simp only [LimbRegs.mk.injEq, BitVec.toNat_eq]
  omega

theorem LimbRegs.value_lt (x : LimbRegs) : x.value < 2 ^ 130 := x.toVec_normalised.value_lt

/-- Storing a normalised vector drops nothing. -/
theorem LimbVec.Normalised.toVec_toRegs {x : LimbVec} (h : x.Normalised) : x.toRegs.toVec = x := by
  obtain ⟨h0, h1, h2, h3, h4⟩ := h
  cases x
  simp only [LimbVec.toRegs, LimbRegs.toVec, BitVec.toNat_ofNat, LimbVec.mk.injEq]
  exact ⟨Nat.mod_eq_of_lt h0, Nat.mod_eq_of_lt h1, Nat.mod_eq_of_lt h2, Nat.mod_eq_of_lt h3, Nat.mod_eq_of_lt h4⟩

theorem LimbVec.Normalised.value_toRegs {x : LimbVec} (h : x.Normalised) : x.toRegs.value = x.value := by
  rw [LimbRegs.value, h.toVec_toRegs]

/-- What is stored of the limb split of an integer below `2^130` has that integer's value. -/
theorem value_limbs_toRegs {v : Nat} (h : v < 2 ^ 130) : (limbs v).toRegs.value = v := by
  rw [(limbs_normalised h).value_toRegs, limbs_value]

/-- Limb add adds the values (`41_absorb.md` R135). -/
theorem limbAdd_value (x m : LimbVec) : (limbAdd x m).value = x.value + m.value := by
  simp only [LimbVec.value, limbAdd]
  omega

/-- Multiply with fold: the product of the values is that of the columns plus a multiple of the prime
(`41_absorb.md` R136). -/
theorem mulFold_value (a r : LimbVec) :
    a.value * r.value = (mulFold a r).value + Config.modulus *
      ((a.x1 * r.x4 + a.x2 * r.x3 + a.x3 * r.x2 + a.x4 * r.x1) +
        (a.x2 * r.x4 + a.x3 * r.x3 + a.x4 * r.x2) * 2 ^ 26 +
        (a.x3 * r.x4 + a.x4 * r.x3) * 2 ^ 52 + a.x4 * r.x4 * 2 ^ 78) := by
  simp only [LimbVec.value, mulFold, Config.modulus]
  ring

/-- A carry chain keeps the value: the carry in is added, the carry out has weight `2^130`. -/
theorem carryChain_value (c : Nat) (x : LimbVec) :
    (carryChain c x).1.value + (carryChain c x).2 * 2 ^ 130 = x.value + c := by
  simp only [LimbVec.value, carryChain]
  omega

/-- A carry chain leaves normalised limbs. -/
theorem carryChain_normalised (c : Nat) (x : LimbVec) : (carryChain c x).1.Normalised := by
  refine ⟨?_, ?_, ?_, ?_, ?_⟩ <;> exact Nat.mod_lt _ (by decide)

/-- A carry chain is division by `2^130`. -/
theorem carryChain_divMod (c : Nat) (x : LimbVec) :
    (carryChain c x).1.value = (x.value + c) % 2 ^ 130 ∧ (carryChain c x).2 = (x.value + c) / 2 ^ 130 := by
  have hv := carryChain_value c x
  have hl := (carryChain_normalised c x).value_lt
  omega

/-- A carry pass is one fold: `fold(v) = (v mod 2^130) + 5*(v >> 130)` (`41_absorb.md` R137, R143). -/
theorem carryPass_value (x : LimbVec) :
    (carryPass x).value = x.value % 2 ^ 130 + 5 * (x.value / 2 ^ 130) := by
  obtain ⟨hm, hd⟩ := carryChain_divMod 0 x
  have : (carryPass x).value = (carryChain 0 x).1.value + 5 * (carryChain 0 x).2 := by
    simp only [carryPass, LimbVec.value]
    omega
  rw [this, hm, hd, Nat.add_zero]

@[simp] theorem selectLimb_keep (x g : Limb) : selectLimb (selectMask 0) x g = x := by
  rw [show selectMask 0 = 0#26 from rfl, selectLimb, BitVec.and_zero, BitVec.or_zero,
    show ~~~(0#26) = BitVec.allOnes 26 from rfl, BitVec.and_allOnes]

@[simp] theorem selectLimb_take (x g : Limb) : selectLimb (selectMask 1) x g = g := by
  rw [show selectMask 1 = BitVec.allOnes 26 from rfl, selectLimb, BitVec.and_allOnes, BitVec.not_allOnes,
    BitVec.and_zero, BitVec.zero_or]

/-- With `sel = 0` the multiplexer passes its input (`42_finalize.md` R173). -/
theorem selected_keep {x : LimbRegs} (h : (candidate x).2 = 0) : selected x = x := by
  simp only [selected, h, selectLimb_keep]

/-- With `sel = 1` the multiplexer passes the candidate. -/
theorem selected_take {x : LimbRegs} (h : (candidate x).2 = 1) : selected x = (candidate x).1 := by
  simp only [selected, h, selectLimb_take]

/-- The last carry keeps the value (`41_absorb.md` R139). -/
theorem lastCarry_value (y : LimbVec) : (lastCarry y).value = y.value := by
  simp only [LimbVec.value, lastCarry]
  omega

end Sys2Proof.Machine
end

