-- ==== Sys2Proof/Laws/PerInstr.lean ====
section
/-! SUPPORT. The family EncodedFields: which fields the word of each instruction spells. -/

namespace Sys2Proof.Laws

/-- `OP`, `FP` and `LEN` of an instruction's word (the columns of `30_encoding.md` R83). -/
def encodedFields : Instr → BitVec 4 × BitVec 1 × BitVec 8
  | .init klen => (1#4, 0#1, klen)
  | .absorb => (2#4, 0#1, 16#8)
  | .absorbp len => (2#4, 1#1, len.setWidth 8)
  | .final => (3#4, 0#1, 0#8)
  | .finalp len => (3#4, 1#1, len.setWidth 8)

/-- The word of the instruction spells these fields, and its reserved fields are zero. -/
def EncodedFields.Statement (i : Instr) : Prop :=
  (fieldOP (encode i), fieldFP (encode i), fieldLEN (encode i)) = encodedFields i ∧
    fieldRSV0 (encode i) = 0#3 ∧ fieldRSV1 (encode i) = 0#16

theorem EncodedFields.init (klen : BitVec 8) : EncodedFields.Statement (.init klen) := by
  revert klen
  unfold EncodedFields.Statement
  decide

theorem EncodedFields.absorb : EncodedFields.Statement .absorb := by
  unfold EncodedFields.Statement
  decide

theorem EncodedFields.absorbp (len : BitVec 4) : EncodedFields.Statement (.absorbp len) := by
  revert len
  unfold EncodedFields.Statement
  decide

theorem EncodedFields.final : EncodedFields.Statement .final := by
  unfold EncodedFields.Statement
  decide

theorem EncodedFields.finalp (len : BitVec 4) : EncodedFields.Statement (.finalp len) := by
  revert len
  unfold EncodedFields.Statement
  decide

end Sys2Proof.Laws
end

