-- ==== Sys2Proof/Tests/Slice0.lean ====
section
/-! SUPPORT. The model's own tests, each expected value taken from the spec (`95_test_vectors.md` unless another
file is named), and for every statement with hypotheses a witness that meets them. -/

namespace Sys2Proof.Tests

open Sys2Proof.Machine

/-! ### Well-formedness: the check refuses an ill-formed term of each kind -/

theorem test_wellFormed_refuses_absorbp_0 : ¬ (Instr.absorbp 0#4).WellFormed := by decide
theorem test_wellFormed_refuses_finalp_0 : ¬ (Instr.finalp 0#4).WellFormed := by decide
theorem test_wellFormed_admits_init_0 : (Instr.init 0#8).WellFormed := by decide

/-! ### Decoding: words written out bit by bit as RSV1, LEN, RSV0, FP, OP (`30_encoding.md` R81, R83) -/

theorem test_decode_init : decode 0b0000000000000000_00100000_000_0_0001#32 = .ok (.init 32#8) := by decide
theorem test_decode_absorb : decode 0b0000000000000000_00010000_000_0_0010#32 = .ok .absorb := by decide
theorem test_decode_absorbp : decode 0b0000000000000000_00001100_000_1_0010#32 = .ok (.absorbp 12#4) := by decide
theorem test_decode_final : decode 0b0000000000000000_00000000_000_0_0011#32 = .ok .final := by decide
theorem test_decode_finalp : decode 0b0000000000000000_00001111_000_1_0011#32 = .ok (.finalp 15#4) := by decide

/-- Illegal words of sections 5.2, 5.3 and of D-I9, by R86: one of each of its classes, two of class (b). -/
theorem test_decode_illegal :
    decode 0x0000000F#32 = .error .reservedOp ∧ decode 0x00011002#32 = .error .reservedBits ∧
      decode 0x00001022#32 = .error .reservedBits ∧ decode 0x00002011#32 = .error .initFinalPartial ∧
      decode 0x00000F02#32 = .error .absorbLength ∧ decode 0x00001012#32 = .error .absorbpLength ∧
      decode 0x00000103#32 = .error .finalLength ∧ decode 0x00000013#32 = .error .finalpLength := by decide

theorem test_decodeTableWord : decodeTableWord 32 0x00000C13 = some (.finalp 12#4) := by decide

/-! ### States to start from -/

/-- The state a meaning answers, or the reset state where it stops. -/
def after : Host.Outcome State Fault Refusal → State
  | .next t => t
  | .fault _ => .reset
  | .refused _ => .reset

/-- The key `K1` in the staging registers. -/
def keyK1 : KeyRegs :=
  ⟨0x73696874#32, 0x20736920#32, 0x622d3233#32, 0x20657479#32, 0x2079656b#32, 0x20726f66#32, 0x796c6f50#32,
    0x35303331#32⟩

/-- `r(K1)`. -/
def rK1 : LimbRegs := ⟨0x3696874#26, 0x0da4800#26, 0x3230007#26, 0x1e008b4#26, 0x0006574#26⟩

/-- Reset, with `K1` staged. -/
def staged : State := { State.reset with key := keyK1 }

/-- Phase 1 under `K1`, with "Hello world!" staged in BLOCK. -/
def live : State :=
  { staged with
    phase := .initialized
    r := rK1
    s := 0x35303331796c6f5020726f662079656b#128
    block := ⟨0x6c6c6548#32, 0x6f77206f#32, 0x21646c72#32, 0x00000000#32⟩ }

/-- All limbs at their largest value `M`. -/
def allOnes : LimbRegs := ⟨0x3ffffff#26, 0x3ffffff#26, 0x3ffffff#26, 0x3ffffff#26, 0x3ffffff#26⟩

/-- A state with these events at its port. -/
def sending (es : List HostEvent) (s : State) : State := { s with port := es }

/-! ### Instructions -/

/-- D-I1. -/
theorem test_init_accepts_K1 :
    (after (exec (.init 32#8) staged)).r = rK1 ∧
      (after (exec (.init 32#8) staged)).s = 0x35303331796c6f5020726f662079656b#128 ∧
      (after (exec (.init 32#8) staged)).status = 0x01#32 := by decide

/-- D-I7: `INIT 31` on a live engine. -/
theorem test_init_31_tears_down :
    (after (exec (.init 31#8) live)).r = .zero ∧ (after (exec (.init 31#8) live)).key = keyK1 ∧
      (after (exec (.init 31#8) live)).status = 0x10#32 := by decide

/-- D-A2 through the instruction: the second of two zero blocks. -/
theorem test_absorb_second_zero_block :
    (after (exec .absorb { live with
        h := ⟨0x043c291#26, 0x010da01#26, 0x3ebc009#26, 0x2580ae1#26, 0x0007ed1#26⟩
        block := ⟨0#32, 0#32, 0#32, 0#32⟩ })).h =
      ⟨0x0ff86de#26, 0x2f629fa#26, 0x3c72a5a#26, 0x3acff1b#26, 0x2d1d398#26⟩ := by decide

/-- D-C4. -/
theorem test_absorbp_hello :
    (after (exec (.absorbp 12#4) live)).h =
      ⟨0x3cc923b#26, 0x1c48a37#26, 0x1e51f65#26, 0x2f3ed7e#26, 0x2bb82bf#26⟩ ∧
      (after (exec (.absorbp 12#4) live)).status = 0x02#32 := by decide

/-- D-F3: the tag of 32 zero bytes. -/
theorem test_final_zero_blocks :
    (after (exec .final { live with
        h := ⟨0x0ff86de#26, 0x2f629fa#26, 0x3c72a5a#26, 0x3acff1b#26, 0x2d1d398#26⟩ })).tag =
      0x0703cc1cb9336bc2c61e480e0978ec49#128 := by decide

/-- D-F4: the subtraction is taken and the sum wraps past `2^128`. -/
theorem test_final_subtracts_and_wraps :
    (after (exec .final { live with h := { allOnes with l0 := 0x3fffffe#26 }, s := BitVec.allOnes 128 })).tag = 2#128 := by
  decide

/-- D-F6: the tag of "Hello world!", and `h` still 0. -/
theorem test_finalp_hello :
    (after (exec (.finalp 12#4) live)).tag = 0xf0b2f2ee74cc0da216c9818f0045f7a6#128 ∧
      (after (exec (.finalp 12#4) live)).h = .zero := by decide

/-- D-F9, D-B5: the bytes above the length are ignored. -/
theorem test_finalp_ignores_stale_bytes :
    (after (exec (.finalp 1#4) { live with block := ⟨0xffffff41#32, 0xffffffff#32, 0xffffffff#32, 0xffffffff#32⟩ })).tag =
      0xb4673dac34185d80b129408a67a55edf#128 := by decide

/-- D-C1. -/
theorem test_absorb_needs_key : (after (exec .absorb staged)).status = 0x20#32 := by decide

/-! ### The datapath -/

/-- D-A8: the largest column and the largest pass-1 carry there can be. -/
theorem test_absorbStep_largest :
    let r : LimbRegs := ⟨0x3ffffff#26, 0x3ffff03#26, 0x3ffc0ff#26, 0x3f03fff#26, 0x00fffff#26⟩
    absorbStep r allOnes (2 ^ 129 - 1) = ⟨0x3fffff8#26, 0x3fffa95#26, 0x3fea57f#26, 0x3a95fff#26, 0x257ffff#26⟩ ∧
      (mulFold (limbAdd allOnes.toVec (limbs (2 ^ 129 - 1))) r.toVec).x0 = 0x1d800095a000002 := by decide

/-- D-A9: pass 2 wraps. -/
theorem test_absorbStep_pass2_wraps :
    absorbStep { LimbRegs.zero with l0 := 0x3ffffff#26 } { LimbRegs.zero with l4 := 0x2000000#26 }
      0x14aa6bed2a9afb4aa6bed2a9afb4aa6bc = ⟨0x12a9afa#26, 0x0000001#26, 0#26, 0#26, 0#26⟩ := by decide

/-- D-A10: pass 3 carries. -/
theorem test_absorbStep_pass3_carries :
    absorbStep { LimbRegs.zero with l0 := 0x3ffffff#26 } { LimbRegs.zero with l4 := 0x3000000#26 }
      0x100000100000040000010000003fffffd = ⟨0x0000003#26, 0x0000001#26, 0#26, 0#26, 0#26⟩ := by decide

/-- `42_finalize.md` section 5: `p - 1`, `p` and `2^130 - 1`. -/
theorem test_canon_at_the_prime :
    canon { allOnes with l0 := 0x3fffffa#26 } = 2 ^ 130 - 6 ∧ canon { allOnes with l0 := 0x3fffffb#26 } = 0 ∧
      canon allOnes = 4 := by decide

/-! ### Host accesses and steps -/

/-- D-H2: KEY is written and reads as 0. -/
theorem test_key_is_write_only :
    (after (step (sending [.write 4 0x20 0x12345678#32] .reset))).key.w0 = 0x12345678#32 ∧
      (after (step (sending [.read 4 0x20] staged))).reply = .value 0#32 := by decide

/-- D-H4: a write to TAG is accepted and ignored. -/
theorem test_tag_write_ignored :
    step (sending [.write 4 0x40 0xffffffff#32] live) = .next { live with reply := .accepted } := by rfl

/-- D-H5, and the last line of program P5: the engine is left as it was. -/
theorem test_reserved_offset_faults :
    step (sending [.write 4 0x08 0#32] live) =
      .fault (.hostAccessFault .reservedOffset { live with reply := .hostAccessFault }) := by rfl

/-- Section 5.3: `ABSORBP 0` in phase 0 is illegal before it is refused for want of a key. -/
theorem test_illegal_word_comes_first :
    (after (step (sending [.write 4 0x00 0x00000012#32] staged))).err = .illegalCommand := by decide

theorem test_withFetchWord_runs_init :
    (after (step (staged.withFetchWord 32 0x00002001))).phase = .initialized ∧
      (after (step (staged.withFetchWord 32 0x00002001))).r = rK1 := by decide

/-- `30_encoding.md` R89: `LDBLK` of "Hello world!" is the four writes of program P1. -/
theorem test_ldblk_hello :
    ldblk [0x48#8, 0x65#8, 0x6c#8, 0x6c#8, 0x6f#8, 0x20#8, 0x77#8, 0x6f#8, 0x72#8, 0x6c#8, 0x64#8, 0x21#8] =
      [.write 4 0x10 0x6c6c6548#32, .write 4 0x14 0x6f77206f#32, .write 4 0x18 0x21646c72#32, .write 4 0x1C 0#32] := by
  decide

/-! ### Witnesses: for every statement with hypotheses, a state and operands that meet them all -/

/-- `live` after an absorption of the largest accumulator's worth. -/
def absorbed : State := { live with phase := .absorbing, h := allOnes }

/-- `live` after a finalization. -/
def finished : State := { live with phase := .finalized, tag := 0xf0b2f2ee74cc0da216c9818f0045f7a6#128 }

theorem inv_of_checks {s : State} (hr : s.r.value &&& Config.clampMask.toNat = s.r.value)
    (hu : s.phase ≠ .uninitialized) (ht : s.phase ≠ .finalized → s.tag = 0#128)
    (hf : s.phase = .initialized → s.h = .zero) : s.Inv :=
  ⟨LimbRegs.value_lt _, hr, fun h => absurd h hu, ht, hf⟩

theorem witness_EncodeThenDecodeReturnsInstruction :
    (Instr.init 255#8).WellFormed ∧ Instr.absorb.WellFormed ∧ (Instr.absorbp 1#4).WellFormed ∧
      Instr.final.WellFormed ∧ (Instr.finalp 15#4).WellFormed := by decide

theorem witness_DecodedWordIsItsInstructionsEncoding : decode 0x0000FF01#32 = .ok (.init 255#8) := by decide

/-- Each row of R83 at the ends of its `LEN`. -/
theorem witness_LegalWordsAreTheTableRows :
    0x0000FF01#32 &&& 0xFFFF00FF#32 = 0x00000001#32 ∧ decode 0x0000FF01#32 = .ok (.init 255#8) ∧
      decode 0x00001002#32 = .ok .absorb ∧
      0x00000112#32 &&& 0xFFFFF0FF#32 = 0x00000012#32 ∧ decode 0x00000112#32 = .ok (.absorbp 1#4) ∧
      decode 0x00000F12#32 = .ok (.absorbp 15#4) ∧ decode 0x00000003#32 = .ok .final ∧
      0x00000F13#32 &&& 0xFFFFF0FF#32 = 0x00000013#32 ∧ decode 0x00000F13#32 = .ok (.finalp 15#4) := by decide

/-- A word of each class of R86 at the ends of its fields, legal words beside them, and a port holding one. -/
theorem witness_IllegalWordsAreTheListedClasses :
    ListedIllegal 0x00000000 ∧ ListedIllegal 0x00001022 ∧ ListedIllegal 0x80000003 ∧ ListedIllegal 0x00002011 ∧
      ListedIllegal 0x00000F02 ∧ ListedIllegal 0x00000012 ∧ ListedIllegal 0x00001012 ∧ ListedIllegal 0x00001003 ∧
      ListedIllegal 0x00000013 ∧ ListedIllegal 0x00001013 ∧
      ¬ ListedIllegal 0x00001002 ∧ ¬ ListedIllegal 0x00000112 ∧ ¬ ListedIllegal 0x00000F13 ∧
      (sending [.write 4 0x00 0x00001012#32] live).port = .write 4 0x00 0x00001012#32 :: [] := by
  refine ⟨?_, ?_, ?_, ?_, ?_, ?_, ?_, ?_, ?_, ?_, ?_, ?_, ?_, ?_⟩ <;> decide

theorem witness_StepRunsTheDecodedInstruction :
    (sending [.write 4 0x00 0x00000C13#32] live).port = .write 4 0x00 0x00000C13#32 :: [] ∧
      decode 0x00000C13#32 = .ok (.finalp 12#4) := by decide

theorem witness_StepDependsOnTheFirstEventOnly :
    (sending [.read 4 0x04, .reset] live).port = .read 4 0x04 :: [.reset] := by decide

theorem witness_IdleEngineWaits : live.port = [] := by decide

theorem witness_ResetInputClearsTheEngine :
    (sending [.reset, .read 4 0x04] live).port = .reset :: [.read 4 0x04] := by decide

/-- A state with the invariants and a multiplier that is not 0, in which a step answers next and in which
one faults. -/
theorem witness_EveryStepKeepsTheInvariants :
    (sending [.write 4 0x00 0x00001002#32] live).Inv ∧
      step (sending [.write 4 0x00 0x00001002#32] live) =
        .next (after (step (sending [.write 4 0x00 0x00001002#32] live))) ∧
      (sending [.read 4 0x50] live).Inv ∧
      step (sending [.read 4 0x50] live) =
        .fault (.hostAccessFault .reservedOffset { live with reply := .hostAccessFault }) := by
  refine ⟨?_, rfl, ?_, rfl⟩ <;> exact inv_of_checks (by decide) (by decide) (by decide) (by decide)

/-- Steps in which each of the elements changes. -/
theorem witness_OnlyTheListedWritersChangeEachElement :
    ((after (step (sending [.write 4 0x00 0x00002001#32] staged))).r ≠ staged.r ∧
      (after (step (sending [.write 4 0x00 0x00002001#32] staged))).s ≠ staged.s) ∧
    (after (step (sending [.write 4 0x00 0x00001002#32] live))).h ≠ live.h ∧
    ((after (step (sending [.write 4 0x00 0x00000003#32] live))).phase ≠ live.phase ∧
      (after (step (sending [.write 4 0x00 0x00000003#32] live))).tag ≠ live.tag) ∧
    (after (step (sending [.write 4 0x00 0x00000000#32] live))).err ≠ live.err ∧
    (after (step (sending [.write 4 0x3C 0#32] live))).key.get 7 ≠ live.key.get 7 ∧
    (after (step (sending [.write 4 0x10 0#32] live))).block.get 0 ≠ live.block.get 0 := by decide

/-- The malformed cases at their edges, and a read of the first and the last register of each group. -/
theorem witness_HostReadReturnsTheRegister :
    (sending [.read 4 0x4C] finished).port = .read 4 0x4C :: [] ∧
      step (sending [.read 4 0x4C] finished) = .next { finished with reply := .value 0xf0b2f2ee#32 } ∧
      step (sending [.read 4 0x04] finished) = .next { finished with reply := .value 0x00000003#32 } ∧
      step (sending [.read 4 0x10] finished) = .next { finished with reply := .value 0x6c6c6548#32 } ∧
      step (sending [.read 4 0x3C] finished) = .next { finished with reply := .value 0#32 } ∧
      step (sending [.read 8 0x04] live) =
        .fault (.hostAccessFault .wrongSize { live with reply := .hostAccessFault }) ∧
      step (sending [.read 4 0x7F] live) =
        .fault (.hostAccessFault .misaligned { live with reply := .hostAccessFault }) ∧
      step (sending [.read 4 0x0C] live) =
        .fault (.hostAccessFault .reservedOffset { live with reply := .hostAccessFault }) ∧
      step (sending [.read 4 0x80] live) =
        .fault (.hostAccessFault .outsideWindow { live with reply := .hostAccessFault }) :=
  ⟨rfl, rfl, rfl, rfl, rfl, rfl, rfl, rfl, rfl⟩

/-- A write of each kind at the edges of its group, and a malformed one. -/
theorem witness_HostWriteStoresCommandsOrIsIgnored :
    (sending [.write 4 0x1C 7#32] live).port = .write 4 0x1C 7#32 :: [] ∧
      (after (step (sending [.write 4 0x1C 7#32] live))).block.w3 = 7#32 ∧
      (after (step (sending [.write 4 0x20 7#32] live))).key.w0 = 7#32 ∧
      step (sending [.write 4 0x04 7#32] live) = .next { live with reply := .accepted } ∧
      step (sending [.write 4 0x4C 7#32] live) = .next { live with reply := .accepted } ∧
      decode 0x00000003#32 = .ok .final ∧ decode 0#32 = .error .reservedOp ∧
      step (sending [.write 2 0x10 7#32] live) =
        .fault (.hostAccessFault .wrongSize { live with reply := .hostAccessFault }) ∧
      step (sending [.write 4 0x50 7#32] live) =
        .fault (.hostAccessFault .reservedOffset { live with reply := .hostAccessFault }) :=
  ⟨rfl, rfl, rfl, rfl, rfl, rfl, rfl, rfl, rfl⟩

theorem witness_ExactlyMalformedAccessesFault :
    (HostEvent.read 4 0x4C).Accepted ∧ ¬ (HostEvent.read 4 0x50).Accepted ∧ ¬ (HostEvent.write 4 0x08 0#32).Accepted ∧
      ¬ (HostEvent.write 1 0x00 0#32).Accepted ∧ ¬ (HostEvent.read 4 0x02).Accepted ∧ HostEvent.reset.Accepted ∧
      (sending [.read 4 0x4C] live).port = .read 4 0x4C :: [] := by decide

theorem witness_AcceptedAccessesNeverStop :
    (sending [.write 4 0x00 0x00000003#32, .read 4 0x40, .reset] live).SafePort := by
  simp only [State.SafePort, sending, List.forall_mem_cons, List.not_mem_nil, false_imp_iff, implies_true, and_true]
  decide

theorem witness_StatusShowsPhaseAndResponse :
    (sending [.read 4 0x04] finished).port = .read 4 0x04 :: [] ∧
      (sending [.write 4 0x04 1#32] finished).port = .write 4 0x04 1#32 :: [] ∧
      finished.readReg .status = 0x00000003#32 := by decide

/-- STATUS in every phase and with every response: after each of the lines 2, 6, 8, 10 and 15 of program P5, and in
phase 2 after D-C4. -/
theorem test_status_values :
    (after (exec .final .reset)).status = 0x20#32 ∧ (execIllegal .reset).status = 0x30#32 ∧
      (after (exec (.init 31#8) .reset)).status = 0x10#32 ∧ (after (exec (.init 32#8) .reset)).status = 0x01#32 ∧
      (after (exec .final live)).status = 0x03#32 ∧ (after (exec (.absorbp 12#4) live)).status = 0x02#32 := by decide

/-- Two machines with different keys and accumulators and the same public state. -/
theorem witness_ReadsRevealNoSecret :
    let s := sending [.read 4 0x20] live
    let t : State := { s with key := staged.key.set 0 0#32, r := .zero, s := 0#128, h := allOnes }
    s ≠ t ∧ s.phase = t.phase ∧ s.err = t.err ∧ s.tag = t.tag ∧ s.block = t.block ∧
      s.port.head? = some (.read 4 0x20) ∧ t.port.head? = some (.read 4 0x20) := by decide

/-- `V(h) = 0` and `V(h) = p`. -/
theorem witness_RepresentativeOfTheResidueIsUnobservable :
    let s := sending [.write 4 0x00 0x00001002#32] { live with phase := .absorbing }
    let t : State := { s with h := { allOnes with l0 := 0x3fffffb#26 } }
    s ≠ t ∧ s.SameResidue t := by
  refine ⟨by decide, rfl, by decide⟩

theorem witness_WindowAddressesReachTheirOffsets :
    (0x7F < 0x80 ∧ Config.base + 0x7F = Config.base + 0x7F) ∧
      (Config.base + 0x80 < Config.base ∨ Config.base + 0x80 ≤ Config.base + 0x80) :=
  ⟨⟨by decide, rfl⟩, .inr (Nat.le_refl _)⟩

theorem witness_InitClampsByteByByte : exec (.init 32#8) staged = .next (after (exec (.init 32#8) staged)) := rfl

theorem witness_MultiplierLimbsObeyTheirMasks : live.Inv :=
  inv_of_checks (by decide) (by decide) (by decide) (by decide)

theorem witness_InitWithAnotherLengthTearsDown : (31#8).toNat ≠ 32 ∧ (255#8).toNat ≠ 32 ∧ (0#8).toNat ≠ 32 := by
  decide

/-- Two keys that agree in KEY[0..3] alone, and two that agree in KEY[4..7] alone. -/
theorem witness_InitDependsOnTheStagedKeyAlone :
    let t : State := { staged with key := keyK1.set 7 0#32 }
    let u : State := { staged with key := keyK1.set 0 0#32 }
    exec (.init 32#8) staged = .next staged.acceptKey ∧ exec (.init 32#8) t = .next t.acceptKey ∧
      exec (.init 32#8) u = .next u.acceptKey ∧
      (∀ i : Fin 8, i.val < 4 → staged.key.get i = t.key.get i) ∧
      (∀ i : Fin 8, 4 ≤ i.val → staged.key.get i = u.key.get i) := by
  refine ⟨rfl, rfl, rfl, by decide, by decide⟩

/-- The largest block integer (`41_absorb.md` R144), for the three statements about the datapath. -/
theorem witness_AbsorbStepMeetsItsContract : 2 ^ 129 - 1 < 2 ^ 129 := by decide
theorem witness_AbsorbStepIsTwoFolds : (⟨0xffffffff#32, 0xffffffff#32, 0xffffffff#32, 0xffffffff#32⟩ : BlockRegs).fullInteger < 2 ^ 129 := by
  decide
theorem witness_DatapathFitsItsWidths : 0x100 < 2 ^ 129 := by decide

theorem witness_AbsorbFoldsTheFullBlock :
    staged.phase = .uninitialized ∧ live.phase ≠ .uninitialized ∧ finished.phase ≠ .uninitialized := by decide

theorem witness_AbsorbpFoldsThePartialBlock :
    1#4 ≠ 0#4 ∧ 15#4 ≠ 0#4 ∧ staged.phase = .uninitialized ∧ absorbed.phase ≠ .uninitialized := by decide

theorem witness_AbsorptionMultipliesTheAccumulator : absorbed.phase ≠ .uninitialized ∧ 15#4 ≠ 0#4 := by decide

/-- Two blocks that agree in byte 0 alone, for `len = 1`. -/
theorem witness_BytesBeyondTheLengthAreIgnored :
    let b : BlockRegs := ⟨0x41#32, 0#32, 0#32, 0#32⟩
    let c : BlockRegs := ⟨0xffffff41#32, 0xffffffff#32, 0xffffffff#32, 0xffffffff#32⟩
    b ≠ c ∧ 1#4 ≠ 0#4 ∧ ∀ k, k < (1#4).toNat → b.value / 2 ^ (8 * k) % 2 ^ 8 = c.value / 2 ^ (8 * k) % 2 ^ 8 := by decide

/-- Two different blocks with the same integer at length 1, and one block at length 16. -/
theorem witness_BlockIntegersDoNotCollide :
    let b : BlockRegs := ⟨0x41#32, 0#32, 0#32, 0#32⟩
    let c : BlockRegs := ⟨0xffffff41#32, 0#32, 0#32, 0#32⟩
    1 ≤ 1 ∧ 1 ≤ 16 ∧ b.partialInteger 1 = c.partialInteger 1 ∧ b.partialInteger 16 = b.partialInteger 16 := by decide

theorem witness_AbsorptionsEvaluateThePolynomial :
    exec (.init 32#8) staged = .next staged.acceptKey ∧ ∀ n ∈ [2 ^ 128, 2 ^ 129 - 1, 0x141], n < 2 ^ 129 :=
  ⟨rfl, by decide⟩

theorem witness_CommandsComputeThePoly1305Tag : 1#4 ≠ 0#4 ∧ 15#4 ≠ 0#4 := by decide

theorem witness_ZeroMultiplierGivesTheMask :
    ({ absorbed with r := .zero } : State).phase ≠ .uninitialized ∧ ({ absorbed with r := .zero } : State).r.value = 0 ∧
      ({ absorbed with r := .zero, h := .zero } : State).h.value = 0 ∧ 1#4 ≠ 0#4 ∧ 15#4 ≠ 0#4 := by decide

/-- Both values of `sel`, and `V(x)` at `p - 1` and at `p`. -/
theorem witness_CandidateSubtractsThePrime :
    (candidate { allOnes with l0 := 0x3fffffa#26 }).2 = 0 ∧ (candidate { allOnes with l0 := 0x3fffffb#26 }).2 = 1 := by
  decide

theorem witness_PadAdditionIsAChainOfWordAdders : 2 ^ 130 - 6 < 2 ^ 130 - 5 := by decide

theorem witness_FinalDeliversTheTag : staged.phase = .uninitialized ∧ finished.phase ≠ .uninitialized := by decide

theorem witness_FinalpDeliversTheTagOfACopy :
    1#4 ≠ 0#4 ∧ 15#4 ≠ 0#4 ∧ staged.phase = .uninitialized ∧ finished.phase ≠ .uninitialized := by decide

theorem witness_FinalpTagInIntegers : 12#4 ≠ 0#4 ∧ live.phase ≠ .uninitialized := by decide
theorem witness_FinalpAgreesWithAbsorbpThenFinal : 15#4 ≠ 0#4 ∧ finished.phase ≠ .uninitialized := by decide
theorem witness_FinalizationIsRepeatable : absorbed.phase ≠ .uninitialized ∧ 1#4 ≠ 0#4 := by decide

theorem witness_DataCommandsNeedAKey :
    (Instr.absorbp 1#4).WellFormed ∧ (∀ klen, Instr.absorbp 1#4 ≠ .init klen) ∧ staged.phase = .uninitialized :=
  ⟨by decide, fun _ => Instr.noConfusion, rfl⟩

theorem witness_LiveDataCommandsSucceed :
    (Instr.finalp 15#4).WellFormed ∧ (∀ klen, Instr.finalp 15#4 ≠ .init klen) ∧ live.phase ≠ .uninitialized :=
  ⟨by decide, fun _ => Instr.noConfusion, by decide⟩

/-- A word and a phase for each response of R232, the first at the edge where two checks meet
(section 5.3: INIT with `FP = 1` and `LEN = 31`). -/
theorem witness_ResponseFollowsTheOrderOfChecks :
    (sending [.write 4 0x00 0x00001F11#32] live).port = .write 4 0x00 0x00001F11#32 :: [] ∧
      ListedIllegal 0x00001F11 ∧
      (¬ ListedIllegal 0x00001F01 ∧ 0x00001F01 % 2 ^ 4 = 1 ∧ 0x00001F01 / 2 ^ 8 % 2 ^ 8 ≠ 32) ∧
      (¬ ListedIllegal 0x00000003 ∧ 0x00000003 % 2 ^ 4 ≠ 1 ∧ staged.phase = .uninitialized) ∧
      (¬ ListedIllegal 0x00002001 ∧ 0x00002001 % 2 ^ 4 = 1 ∧ 0x00002001 / 2 ^ 8 % 2 ^ 8 = 32) := by
  refine ⟨?_, ?_, ?_, ?_, ?_⟩ <;> decide

/-- A word for each column of R39, and a phase for each kind of row. -/
theorem witness_PhaseTransitionTable :
    (sending [.write 4 0x00 0x00001002#32] finished).port = .write 4 0x00 0x00001002#32 :: [] ∧
      ListedIllegal 0x00001102 ∧ ¬ ListedIllegal 0x00002001 ∧ ¬ ListedIllegal 0x00002101 ∧
      (¬ ListedIllegal 0x00001002 ∧ 0x00001002 % 2 ^ 4 = 2) ∧ (¬ ListedIllegal 0x00000113 ∧ 0x00000113 % 2 ^ 4 = 3) ∧
      staged.phase = .uninitialized ∧ finished.phase ≠ .uninitialized := by
  refine ⟨?_, ?_, ?_, ?_, ?_, ?_, ?_, ?_⟩ <;> decide

/-- A word for each line of R233, and a phase for each. -/
theorem witness_CompleteCommandFunction :
    (sending [.write 4 0x00 0x00000F13#32] absorbed).port = .write 4 0x00 0x00000F13#32 :: [] ∧
      ListedIllegal 0x00000F03 ∧ ¬ ListedIllegal 0x0000FF01 ∧ ¬ ListedIllegal 0x00002001 ∧
      (¬ ListedIllegal 0x00001002 ∧ 0x00001002 / 2 ^ 4 % 2 = 0) ∧ (¬ ListedIllegal 0x00000112 ∧ 0x00000112 / 2 ^ 4 % 2 = 1) ∧
      (¬ ListedIllegal 0x00000003 ∧ 0x00000003 / 2 ^ 4 % 2 = 0) ∧ (¬ ListedIllegal 0x00000F13 ∧ 0x00000F13 / 2 ^ 4 % 2 = 1) ∧
      staged.phase = .uninitialized ∧ absorbed.phase ≠ .uninitialized := by
  refine ⟨?_, ?_, ?_, ?_, ?_, ?_, ?_, ?_, ?_, ?_⟩ <;> decide

theorem witness_IllFormedTermsAreIllegalCommands : ¬ (Instr.absorbp 0#4).WellFormed ∧ ¬ (Instr.finalp 0#4).WellFormed := by
  decide

theorem witness_LdkeyStagesTheKey :
    (List.replicate 32 0xff#8).length = 32 ∧
      (sending (ldkey (List.replicate 32 0xff#8) ++ [.read 4 0x04]) live).port =
        ldkey (List.replicate 32 0xff#8) ++ [.read 4 0x04] :=
  ⟨rfl, rfl⟩

/-- Key bytes enough, a message in two chunks of which the second completes a block, an empty write and a `Sum`
between them. -/
theorem witness_AdapterSessionDeliversPoly1305 :
    let key := List.replicate 32 0x42#8
    let calls : List AdapterCall := [.write (List.replicate 15 0x41#8), .sum, .write [], .write (List.replicate 3 0x43#8)]
    key.length = 32 ∧ (sending (adapterSession key calls ++ [.read 4 0x04]) live).port =
      adapterSession key calls ++ [.read 4 0x04] :=
  ⟨rfl, rfl⟩

theorem witness_WritesSendTheCanonicalProgram : (List.replicate 32 0#8).length = 32 := by decide

/-- One byte too few, and 256 too many, which the low 8 bits of the length do not tell from 32 bytes. -/
theorem witness_NewWithAnotherLengthIsRefused :
    (List.replicate 31 0x42#8).length ≠ 32 ∧ (List.replicate 288 0x42#8).length ≠ 32 ∧
      (sending (adapterNew (List.replicate 31 0x42#8) ++ [.read 4 0x04]) live).port =
        adapterNew (List.replicate 31 0x42#8) ++ [.read 4 0x04] :=
  ⟨by rw [List.length_replicate]; decide, by rw [List.length_replicate]; decide, rfl⟩

end Sys2Proof.Tests
end

section
/-! SUPPORT. One step by the event at the head of the port: the four kinds an event can be of, and what the
step answers for each. -/

namespace Sys2Proof.Machine

/-- The access check refuses the event on this ground (`20_memory.md` R56). -/
def HostEvent.Malformed (why : AccessError) : HostEvent → Prop
  | .read size off => checkAccess size off = .error why
  | .write size off _ => checkAccess size off = .error why
  | .reset => False

/-- An event is a reset, a read or a write of a register, or malformed. -/
theorem HostEvent.kind (e : HostEvent) :
    e = .reset ∨ (∃ reg, e = rd reg) ∨ (∃ reg v, e = wr reg v) ∨ ∃ why, e.Malformed why := by
  cases e with
  | reset => exact .inl rfl
  | read size off =>
    cases h : checkAccess size off with
    | ok reg =>
      obtain ⟨rfl, rfl⟩ := checkAccess_eq_ok.1 h
      exact .inr (.inl ⟨reg, rfl⟩)
    | error why => exact .inr (.inr (.inr ⟨why, h⟩))
  | write size off v =>
    cases h : checkAccess size off with
    | ok reg =>
      obtain ⟨rfl, rfl⟩ := checkAccess_eq_ok.1 h
      exact .inr (.inr (.inl ⟨reg, v, rfl⟩))
    | error why => exact .inr (.inr (.inr ⟨why, h⟩))

section

variable {s : State} {rest : List HostEvent}

theorem step_idle (hp : s.port = []) : step s = .next s := by
  simp [step, hp]

theorem step_reset (hp : s.port = .reset :: rest) : step s = .next { State.reset with port := rest } := by
  simp [step, hp, performEvent, State.restart]

/-- A read answers the register and changes nothing else (R57). -/
theorem step_rd {reg : Reg} (hp : s.port = rd reg :: rest) :
    step s = .next { s with port := rest, reply := .value (s.readReg reg) } := by
  simp only [step, hp, rd, performEvent, checkAccess_offset]
  cases reg <;> rfl

/-- A write to STATUS is ignored (R58). -/
theorem step_wr_status {v : Word} (hp : s.port = wr .status v :: rest) :
    step s = .next { s with port := rest, reply := .accepted } := by
  simp only [step, hp, wr, performEvent, checkAccess_offset, writeReg, State.answer]

/-- A write to TAG is ignored (R58). -/
theorem step_wr_tag {i : Fin 4} {v : Word} (hp : s.port = wr (.tag i) v :: rest) :
    step s = .next { s with port := rest, reply := .accepted } := by
  simp only [step, hp, wr, performEvent, checkAccess_offset, writeReg, State.answer]

theorem step_wr_block {i : Fin 4} {v : Word} (hp : s.port = wr (.block i) v :: rest) :
    step s = .next (State.stageBlock i v { s with port := rest, reply := .accepted }) := by
  simp only [step, hp, wr, performEvent, checkAccess_offset, writeReg, State.answer]

theorem step_wr_key {i : Fin 8} {v : Word} (hp : s.port = wr (.key i) v :: rest) :
    step s = .next (State.stageKey i v { s with port := rest, reply := .accepted }) := by
  simp only [step, hp, wr, performEvent, checkAccess_offset, writeReg, State.answer]

/-- A write of a legal word to CMD runs its instruction (`30_encoding.md` R80). -/
theorem step_command {w : Word} {i : Instr} (hp : s.port = wr .cmd w :: rest) (hd : decode w = .ok i) :
    step s = exec i { s with port := rest, reply := .accepted } := by
  simp only [step, hp, wr, performEvent, checkAccess_offset, writeReg, State.answer, hd]

/-- A write of an illegal word to CMD answers `IllegalCommand` (R86). -/
theorem step_illegal {w : Word} {x : IllegalWord} (hp : s.port = wr .cmd w :: rest) (hd : decode w = .error x) :
    step s = .next (execIllegal { s with port := rest, reply := .accepted }) := by
  simp only [step, hp, wr, performEvent, checkAccess_offset, writeReg, State.answer, hd]

theorem step_malformed {e : HostEvent} {why : AccessError} (hp : s.port = e :: rest) (he : e.Malformed why) :
    step s = .fault (.hostAccessFault why { s with port := rest, reply := .hostAccessFault }) := by
  cases e with
  | read size off => simp only [step, hp, performEvent, show checkAccess size off = _ from he, malformed, State.answer]
  | write size off v => simp only [step, hp, performEvent, show checkAccess size off = _ from he, malformed, State.answer]
  | reset => exact he.elim

end

/-- What a meaning leaves as it was: KEY and BLOCK always, `r` and `s` but for INIT, and `h` in a finalization. -/
theorem exec_frame {i : Instr} {s t : State} (h : exec i s = .next t) :
    t.key = s.key ∧ t.block = s.block ∧ ((∀ klen, i ≠ .init klen) → t.r = s.r ∧ t.s = s.s) ∧
      ((i = .final ∨ ∃ len, i = .finalp len) → t.h = s.h) := by
  rcases exec_cases i s with ⟨rfl, he⟩ | ⟨klen, rfl, -, he⟩ | ⟨-, he⟩ | ⟨-, -, he⟩ | ⟨n, -, hi, -, he⟩ | ⟨T, -, -, he⟩ <;>
    cases he.symm.trans h
  · exact ⟨rfl, rfl, fun hi => absurd rfl (hi _), by simp⟩
  · exact ⟨rfl, rfl, fun hi => absurd rfl (hi _), by simp⟩
  · exact ⟨rfl, rfl, fun _ => ⟨rfl, rfl⟩, fun _ => rfl⟩
  · exact ⟨rfl, rfl, fun _ => ⟨rfl, rfl⟩, fun _ => rfl⟩
  · refine ⟨rfl, rfl, fun _ => ⟨rfl, rfl⟩, fun hf => ?_⟩
    rcases hi with rfl | ⟨len, rfl⟩ <;> simp at hf
  · exact ⟨rfl, rfl, fun _ => ⟨rfl, rfl⟩, fun _ => rfl⟩

end Sys2Proof.Machine
end

section
/-! SUPPORT. The invariants INV1 to INV5 of `10_state.md` R36, over the updates, the meanings and the step. -/

namespace Sys2Proof.Machine

/-- The invariants read `phase`, `r`, `s`, `h` and `tag` alone. -/
theorem State.Inv.of_eq {s t : State} (h : s.Inv) (hp : t.phase = s.phase) (hr : t.r = s.r) (hs : t.s = s.s)
    (hh : t.h = s.h) (ht : t.tag = s.tag) : t.Inv where
  accBound := hh ▸ h.accBound
  clamped := hr ▸ h.clamped
  unkeyed := hp ▸ hr ▸ hs ▸ hh ▸ ht ▸ h.unkeyed
  noTag := hp ▸ ht ▸ h.noTag
  fresh := hp ▸ hh ▸ h.fresh

theorem State.reset_inv : State.reset.Inv where
  accBound := LimbRegs.value_lt _
  clamped := rfl
  unkeyed _ := ⟨rfl, rfl, rfl, rfl⟩
  noTag _ := rfl
  fresh _ := rfl

/-- The stored multiplier of an accepted key is the clamped half of the key (`40_init.md` R112, R113). -/
theorem State.acceptKey_r_value (s : State) : s.acceptKey.r.value = s.key.clamped.toNat :=
  value_limbs_toRegs (s.key.clamped.isLt.trans (by decide))

theorem State.acceptKey_inv (s : State) : s.acceptKey.Inv where
  accBound := LimbRegs.value_lt _
  clamped := by
    rw [State.acceptKey_r_value, KeyRegs.clamped, ← BitVec.toNat_and, BitVec.and_assoc, BitVec.and_self]
  unkeyed h := by simp at h
  noTag _ := rfl
  fresh _ := rfl

theorem State.refuseKey_inv (s : State) : s.refuseKey.Inv where
  accBound := LimbRegs.value_lt _
  clamped := by simp
  unkeyed _ := ⟨rfl, rfl, rfl, rfl⟩
  noTag _ := rfl
  fresh _ := rfl

theorem State.Inv.accumulate {s : State} (h : s.Inv) (h' : LimbRegs) : (s.accumulate h').Inv where
  accBound := LimbRegs.value_lt _
  clamped := h.clamped
  unkeyed hp := by simp at hp
  noTag _ := rfl
  fresh hp := by simp at hp

theorem State.Inv.deliver {s : State} (h : s.Inv) (T : Wide) : (s.deliver T).Inv where
  accBound := h.accBound
  clamped := h.clamped
  unkeyed hp := by simp at hp
  noTag hp := by simp at hp
  fresh hp := by simp at hp

theorem State.Inv.respond {s : State} (h : s.Inv) (e : Response) : (s.respond e).Inv := h.of_eq rfl rfl rfl rfl rfl

/-- The state an outcome leaves, after a next state or a fault, has the invariants. -/
def LeavesInv : Host.Outcome State Fault Refusal → Prop
  | .next t => t.Inv
  | .fault (.hostAccessFault _ left) => left.Inv
  | .refused _ => True

/-- Every meaning keeps the invariants. -/
theorem exec_leavesInv (i : Instr) {s : State} (h : s.Inv) : LeavesInv (exec i s) := by
  rcases exec_cases i s with ⟨-, he⟩ | ⟨-, -, -, he⟩ | ⟨-, he⟩ | ⟨-, -, he⟩ | ⟨n, -, -, -, he⟩ | ⟨T, -, -, he⟩ <;> rw [he]
  · exact s.acceptKey_inv
  · exact s.refuseKey_inv
  · exact h.respond _
  · exact h.respond _
  · exact h.accumulate _
  · exact h.deliver T

/-- Every step keeps the invariants, by the kind of the event performed. -/
theorem step_leavesInv {s : State} (h : s.Inv) : LeavesInv (step s) := by
  cases hp : s.port with
  | nil => rw [step_idle hp]; exact h
  | cons e rest =>
    have answered (a : HostReply) : State.Inv { s with port := rest, reply := a } := h.of_eq rfl rfl rfl rfl rfl
    obtain rfl | ⟨reg, rfl⟩ | ⟨reg, v, rfl⟩ | ⟨why, he⟩ := e.kind
    · rw [step_reset hp]
      exact State.reset_inv.of_eq rfl rfl rfl rfl rfl
    · rw [step_rd hp]
      exact answered _
    · cases reg with
      | cmd =>
        cases hd : decode v with
        | ok i => rw [step_command hp hd]; exact exec_leavesInv i (answered _)
        | error x => rw [step_illegal hp hd]; exact (answered _).respond _
      | status => rw [step_wr_status hp]; exact answered _
      | block i => rw [step_wr_block hp]; exact (answered .accepted).of_eq rfl rfl rfl rfl rfl
      | key i => rw [step_wr_key hp]; exact (answered .accepted).of_eq rfl rfl rfl rfl rfl
      | tag i => rw [step_wr_tag hp]; exact answered _
    · rw [step_malformed hp he]
      exact answered _

/-- Settles O13: the invariants are kept by each update a step can be made of. -/
theorem everyStepKeepsTheInvariants : Obligations.EveryStepKeepsTheInvariants := by
  intro s h
  have kept := step_leavesInv h
  refine ⟨fun t ht => ?_, fun why left hl => ?_⟩
  · rwa [ht] at kept
  · rwa [hl] at kept

/-- Settles O12. -/
theorem invariantsHoldAtReset : Obligations.InvariantsHoldAtReset := State.reset_inv

/-- Settles O14: the event's kind, then the frame of the update it makes. -/
theorem onlyTheListedWritersChangeEachElement : Obligations.OnlyTheListedWritersChangeEachElement := by
  intro s t e rest hp ht
  obtain rfl | ⟨reg, rfl⟩ | ⟨reg, v, rfl⟩ | ⟨why, he⟩ := e.kind
  · exact .inl rfl
  · cases (step_rd hp).symm.trans ht
    simp
  · right
    cases reg with
    | cmd =>
      cases hd : decode v with
      | ok i =>
        obtain ⟨hkey, hblock, hmul, hacc⟩ := exec_frame ((step_command hp hd).symm.trans ht)
        refine ⟨fun hne => ?_, fun hne => ?_, fun _ => ⟨v, i, rfl, hd⟩, fun _ => ⟨v, rfl⟩, ?_, ?_⟩
        · by_contra hno
          obtain ⟨hr, hs⟩ := hmul fun klen hi => hno ⟨v, klen, rfl, hi ▸ hd⟩
          exact hne.elim (· hr) (· hs)
        · exact ⟨v, i, rfl, hd, fun hi => hne (hacc (.inl hi)), fun len hi => hne (hacc (.inr ⟨len, hi⟩))⟩
        · simp [hkey]
        · simp [hblock]
      | error x =>
        cases (step_illegal hp hd).symm.trans ht
        simp [execIllegal, wr, Reg.offset]
    | status =>
      cases (step_wr_status hp).symm.trans ht
      simp
    | block i =>
      cases (step_wr_block hp).symm.trans ht
      simp +contextual [BlockRegs.get_set, wr, Reg.offset]
    | key i =>
      cases (step_wr_key hp).symm.trans ht
      simp +contextual [KeyRegs.get_set, wr, Reg.offset]
    | tag i =>
      cases (step_wr_tag hp).symm.trans ht
      simp
  · exact absurd ((step_malformed hp he).symm.trans ht) (by simp)

end Sys2Proof.Machine
end

section
/-! SUPPORT. The datapath by its values (`41_absorb.md` R140, R143; `42_finalize.md` R171): an absorption and a
canonical value depend on the accumulator's residue alone. -/

namespace Sys2Proof.Machine

/-- Every limb is below `b`. -/
def LimbVec.Below (b : Nat) (x : LimbVec) : Prop := x.x0 < b ∧ x.x1 < b ∧ x.x2 < b ∧ x.x3 < b ∧ x.x4 < b

/-- The limb sums of R135 are below `2^27`: the top limb of a block integer has 25 bits (R142). -/
theorem limbAdd_below (x : LimbRegs) {n : Nat} (h : n < 2 ^ 129) : (limbAdd x.toVec (limbs n)).Below (2 ^ 27) := by
  obtain ⟨x0, x1, x2, x3, x4⟩ := x.toVec_normalised
  obtain ⟨n0, n1, n2, n3, n4⟩ := limbs_normalised (h.trans (by decide : 2 ^ 129 < 2 ^ 130))
  simp only [LimbVec.Below, limbAdd]
  omega

/-- One column of R136: five products of a limb sum and a limb or its multiple by 5. -/
theorem column_lt {a w : LimbVec} (ha : a.Below (2 ^ 27)) (hw : w.Below (2 ^ 29)) :
    a.x0 * w.x0 + a.x1 * w.x1 + a.x2 * w.x2 + a.x3 * w.x3 + a.x4 * w.x4 < 5 * 2 ^ 56 := by
  obtain ⟨a0, a1, a2, a3, a4⟩ := ha
  obtain ⟨w0, w1, w2, w3, w4⟩ := hw
  have := Nat.mul_lt_mul'' a0 w0
  have := Nat.mul_lt_mul'' a1 w1
  have := Nat.mul_lt_mul'' a2 w2
  have := Nat.mul_lt_mul'' a3 w3
  have := Nat.mul_lt_mul'' a4 w4
  omega

/-- The columns are small beside `2^130`, whatever the stored multiplier (R142). -/
theorem mulFold_value_lt {a : LimbVec} (ha : a.Below (2 ^ 27)) (r : LimbRegs) : (mulFold a r.toVec).value < 2 ^ 163 := by
  obtain ⟨r0, r1, r2, r3, r4⟩ := r.toVec_normalised
  generalize r.toVec = q at *
  obtain ⟨w0, w1, w2, w3, w4⟩ :
      LimbVec.Below (2 ^ 29) ⟨q.x0, 5 * q.x4, 5 * q.x3, 5 * q.x2, 5 * q.x1⟩ ∧
        LimbVec.Below (2 ^ 29) ⟨q.x1, q.x0, 5 * q.x4, 5 * q.x3, 5 * q.x2⟩ ∧
        LimbVec.Below (2 ^ 29) ⟨q.x2, q.x1, q.x0, 5 * q.x4, 5 * q.x3⟩ ∧
        LimbVec.Below (2 ^ 29) ⟨q.x3, q.x2, q.x1, q.x0, 5 * q.x4⟩ ∧
        LimbVec.Below (2 ^ 29) ⟨q.x4, q.x3, q.x2, q.x1, q.x0⟩ := by
    simp only [LimbVec.Below]
    omega
  have c0 : (mulFold a q).x0 < 5 * 2 ^ 56 := column_lt ha w0
  have c1 : (mulFold a q).x1 < 5 * 2 ^ 56 := column_lt ha w1
  have c2 : (mulFold a q).x2 < 5 * 2 ^ 56 := column_lt ha w2
  have c3 : (mulFold a q).x3 < 5 * 2 ^ 56 := column_lt ha w3
  have c4 : (mulFold a q).x4 < 5 * 2 ^ 56 := column_lt ha w4
  rw [LimbVec.value]
  omega

/-- Pass 2 and pass 3 normalise what pass 1 leaves: where pass 2 wraps, only the low limbs are in use, so the
last carry has room in limb 1 (R138, R139). -/
theorem lastCarry_carryPass_normalised {z : LimbVec} (hz : z.value < 2 ^ 130 + 2 ^ 52 - 2 ^ 26) :
    (lastCarry (carryPass z)).Normalised := by
  obtain ⟨y0, y1, y2, y3, y4⟩ := carryChain_normalised 0 z
  obtain ⟨hm, hd⟩ := carryChain_divMod 0 z
  have hwrap : (carryChain 0 z).2 = 0 ∨ (carryChain 0 z).2 = 1 ∧ (carryChain 0 z).1.x1 < 2 ^ 26 - 1 := by
    simp only [LimbVec.value] at hm hz hd
    omega
  simp only [LimbVec.Normalised, lastCarry, carryPass]
  omega

/-- The vector that an absorption stores is normalised (R140 (b)). -/
theorem absorbStep_normalised (r x : LimbRegs) {n : Nat} (h : n < 2 ^ 129) :
    (lastCarry (carryPass (carryPass (mulFold (limbAdd x.toVec (limbs n)) r.toVec)))).Normalised := by
  apply lastCarry_carryPass_normalised
  have := mulFold_value_lt (limbAdd_below x h) r
  rw [carryPass_value]
  omega

/-- What an absorption stores has the value of pass 2 on pass 1 (R143). -/
theorem absorbStep_value (r x : LimbRegs) {n : Nat} (h : n < 2 ^ 129) :
    (absorbStep r x n).value = (carryPass (carryPass (mulFold (limbAdd x.toVec (limbs n)) r.toVec))).value := by
  rw [absorbStep, (absorbStep_normalised r x h).value_toRegs, lastCarry_value]

/-- A carry pass keeps the residue, because `2^130` is 5 modulo the prime. -/
theorem carryPass_residue (x : LimbVec) : (carryPass x).value % Config.modulus = x.value % Config.modulus := by
  rw [carryPass_value]
  simp only [Config.modulus]
  omega

/-- The contract of one absorption (R140 (a)). -/
theorem absorbStep_residue (r x : LimbRegs) {n : Nat} (h : n < 2 ^ 129) :
    (absorbStep r x n).value % Config.modulus = (x.value + n) * r.value % Config.modulus := by
  have hprod := mulFold_value (limbAdd x.toVec (limbs n)) r.toVec
  rw [limbAdd_value, limbs_value] at hprod
  rw [absorbStep_value r x h, carryPass_residue, carryPass_residue, LimbRegs.value, LimbRegs.value, hprod,
    Nat.add_mul_mod_self_left]

/-- An absorption keeps accumulators alike that are alike modulo the prime. -/
theorem absorbStep_residue_congr (r : LimbRegs) {x y : LimbRegs} {n : Nat} (h : n < 2 ^ 129)
    (hxy : x.value % Config.modulus = y.value % Config.modulus) :
    (absorbStep r x n).value % Config.modulus = (absorbStep r y n).value % Config.modulus := by
  rw [absorbStep_residue r x h, absorbStep_residue r y h, Nat.mul_mod, Nat.add_mod, hxy, ← Nat.add_mod, ← Nat.mul_mod]

/-- The candidate and its carry are the two parts of `V(x) + 5` (`42_finalize.md` R172). -/
theorem candidate_value (x : LimbRegs) :
    (candidate x).1.value = (x.value + 5) % 2 ^ 130 ∧ (candidate x).2 = (x.value + 5) / 2 ^ 130 := by
  obtain ⟨hm, hd⟩ := carryChain_divMod 5 x.toVec
  exact ⟨(carryChain_normalised 5 x.toVec).value_toRegs.trans hm, hd⟩

/-- The canonical value is the residue (R171). -/
theorem canon_eq_mod (x : LimbRegs) : canon x = x.value % Config.modulus := by
  obtain ⟨hg, hsel⟩ := candidate_value x
  have hx := x.value_lt
  obtain h0 | h1 : (candidate x).2 = 0 ∨ (candidate x).2 = 1 := by omega
  · rw [canon, selected_keep h0]
    simp only [Config.modulus]
    omega
  · rw [canon, selected_take h1, hg]
    simp only [Config.modulus]
    omega

/-! ### Machines alike up to the representative of `h` -/

theorem State.SameResidue.refl (s : State) : s.SameResidue s := ⟨rfl, rfl⟩

section

variable {s : State} {k : LimbRegs} (hk : s.h.value % Config.modulus = k.value % Config.modulus)

include hk

theorem requireKey_sameResidue {t u : State} (h : t.SameResidue u) :
    (requireKey s t).SameResidue (requireKey { s with h := k } u) := by
  by_cases hp : s.phase = .uninitialized
  · rw [requireKey_unkeyed t hp, requireKey_unkeyed (s := { s with h := k }) u hp]
    exact ⟨rfl, hk⟩
  · rw [requireKey_live t hp, requireKey_live (s := { s with h := k }) u hp]
    exact h

theorem accumulate_sameResidue {n : Nat} (hn : n < 2 ^ 129) :
    (s.accumulate (absorbStep s.r s.h n)).SameResidue (State.accumulate (absorbStep s.r k n) { s with h := k }) :=
  ⟨rfl, absorbStep_residue_congr s.r hn hk⟩

theorem deliver_sameResidue {x y : LimbRegs} (hxy : x.value % Config.modulus = y.value % Config.modulus) :
    (s.deliver (padAdd (canon x) s.s)).SameResidue (State.deliver (padAdd (canon y) s.s) { s with h := k }) := by
  rw [canon_eq_mod, canon_eq_mod, hxy]
  exact ⟨rfl, hk⟩

/-- No meaning depends on the representative. -/
theorem exec_sameOutcome (i : Instr) : SameOutcome (exec i s) (exec i { s with h := k }) := by
  have partial_lt (len : BitVec 4) : s.block.partialInteger len.toNat < 2 ^ 129 :=
    (s.block.partialInteger_lt len).trans (by decide)
  cases i with
  | init klen =>
    by_cases hl : klen = 32#8
    · subst hl
      exact State.SameResidue.refl s.acceptKey
    · rw [exec_init_refuses hl, exec_init_refuses hl]
      exact State.SameResidue.refl s.refuseKey
  | absorb => exact requireKey_sameResidue hk (accumulate_sameResidue hk s.block.fullInteger_lt)
  | absorbp len =>
    by_cases hl : len = 0#4
    · subst hl
      exact ⟨rfl, hk⟩
    · simp only [exec, execAbsorbp, if_neg hl]
      exact requireKey_sameResidue hk (accumulate_sameResidue hk (partial_lt len))
  | final => exact requireKey_sameResidue hk (deliver_sameResidue hk hk)
  | finalp len =>
    by_cases hl : len = 0#4
    · subst hl
      exact ⟨rfl, hk⟩
    · simp only [exec, execFinalp, if_neg hl]
      exact requireKey_sameResidue hk (deliver_sameResidue hk (absorbStep_residue_congr s.r (partial_lt len) hk))

/-- No step depends on the representative, by the kind of the event performed. -/
theorem step_sameOutcome : SameOutcome (step s) (step { s with h := k }) := by
  obtain hp | ⟨e, rest, hp⟩ : s.port = [] ∨ ∃ e rest, s.port = e :: rest := by cases s.port <;> simp
  · rw [step_idle hp, step_idle (s := { s with h := k }) hp]
    exact ⟨rfl, hk⟩
  · obtain rfl | ⟨reg, rfl⟩ | ⟨reg, v, rfl⟩ | ⟨why, he⟩ := e.kind
    · rw [step_reset hp, step_reset (s := { s with h := k }) hp]
      exact State.SameResidue.refl _
    · rw [step_rd hp, step_rd (s := { s with h := k }) hp]
      cases reg <;> exact ⟨rfl, hk⟩
    · cases reg with
      | cmd =>
        cases hd : decode v with
        | ok i =>
          rw [step_command hp hd, step_command (s := { s with h := k }) hp hd]
          exact exec_sameOutcome (s := { s with port := rest, reply := .accepted }) hk i
        | error x =>
          rw [step_illegal hp hd, step_illegal (s := { s with h := k }) hp hd]
          exact ⟨rfl, hk⟩
      | status =>
        rw [step_wr_status hp, step_wr_status (s := { s with h := k }) hp]
        exact ⟨rfl, hk⟩
      | block i =>
        rw [step_wr_block hp, step_wr_block (s := { s with h := k }) hp]
        exact ⟨rfl, hk⟩
      | key i =>
        rw [step_wr_key hp, step_wr_key (s := { s with h := k }) hp]
        exact ⟨rfl, hk⟩
      | tag i =>
        rw [step_wr_tag hp, step_wr_tag (s := { s with h := k }) hp]
        exact ⟨rfl, hk⟩
    · rw [step_malformed hp he, step_malformed (s := { s with h := k }) hp he]
      exact ⟨rfl, rfl, hk⟩

end

/-- Settles O22: absorptions keep the residue alike, and a tag reads the residue alone. -/
theorem representativeOfTheResidueIsUnobservable : Obligations.RepresentativeOfTheResidueIsUnobservable := by
  rintro s t ⟨others, residue⟩
  rw [others]
  exact step_sameOutcome residue

end Sys2Proof.Machine
end

section
/-! SUPPORT. What a host reads, and the limbs of a clamped multiplier. -/

namespace Sys2Proof.Machine

/-- A read sees `phase`, `err`, `tag` and BLOCK alone (`10_state.md` R34). -/
theorem readReg_congr {s t : State} (hp : s.phase = t.phase) (he : s.err = t.err) (ht : s.tag = t.tag)
    (hb : s.block = t.block) (reg : Reg) : s.readReg reg = t.readReg reg := by
  cases reg <;> simp only [State.readReg, State.status, State.tagWord, hp, he, ht, hb]

/-- Settles O21: the access check reads the access alone, and the register read the public state alone. -/
theorem readsRevealNoSecret : Obligations.ReadsRevealNoSecret := by
  intro s t size off hp he ht hb hs hu
  obtain ⟨rest, hs⟩ := List.head?_eq_some_iff.1 hs
  obtain ⟨rest', hu⟩ := List.head?_eq_some_iff.1 hu
  cases hc : checkAccess size off with
  | ok reg =>
    obtain ⟨rfl, rfl⟩ := checkAccess_eq_ok.1 hc
    exact .inl ⟨_, _, step_rd hs, step_rd hu, congrArg HostReply.value (readReg_congr hp he ht hb reg)⟩
  | error why => exact .inr ⟨why, _, _, step_malformed hs hc, step_malformed hu hc⟩

/-- STATUS as an integer (R30). -/
theorem status_toNat (s : State) : s.status.toNat = s.phase.code.toNat + 16 * s.err.code.toNat := by
  rw [State.status]
  cases s.phase <;> cases s.err <;> rfl

/-- Settles O19: STATUS is the code of the phase plus 16 times that of the response. -/
theorem statusShowsPhaseAndResponse : Obligations.StatusShowsPhaseAndResponse := by
  intro s
  have hv : (s.readReg .status).toNat = s.phase.code.toNat + 16 * s.err.code.toNat := status_toNat s
  have hp := s.phase.code.isLt
  have he := s.err.code.isLt
  have low : (s.readReg .status).toNat % 2 ^ 2 = s.phase.code.toNat := by omega
  have high : (s.readReg .status).toNat / 2 ^ 4 % 2 ^ 2 = s.err.code.toNat := by omega
  refine ⟨?_, by omega, ?_, by omega, fun rest => step_rd (reg := .status), fun rest v => step_wr_status⟩
  · rw [low]
    simp +contextual [Phase.code]
  · rw [high]
    simp +contextual [Response.code]

/-- Settles O11. -/
theorem resetStateIsAllZero : Obligations.ResetStateIsAllZero := by
  refine ⟨rfl, rfl, rfl, rfl, rfl, rfl, by decide, by decide, fun reg => ?_⟩
  cases reg with
  | cmd | status | key => rfl
  | block i | tag i => revert i; decide

/-- Stored limbs are the limb split of their value (`00_scope.md` R13). -/
theorem LimbRegs.limbs_value (x : LimbRegs) : limbs x.value = x.toVec := by
  obtain ⟨h0, h1, h2, h3, h4⟩ := x.toVec_normalised
  rw [LimbRegs.value]
  generalize x.toVec = v at *
  cases v
  simp only [limbs, LimbVec.value, LimbVec.mk.injEq] at *
  omega

/-- The limb split of a masked integer is that of the integer, limb by limb under that of the mask. -/
theorem limbs_and (v m : Nat) :
    limbs (v &&& m) = ⟨(limbs v).x0 &&& (limbs m).x0, (limbs v).x1 &&& (limbs m).x1, (limbs v).x2 &&& (limbs m).x2,
      (limbs v).x3 &&& (limbs m).x3, (limbs v).x4 &&& (limbs m).x4⟩ := by
  simp only [limbs, Nat.and_div_two_pow, Nat.and_mod_two_pow]

/-- A limb equal to its masked value has no bit outside the mask. -/
theorem limb_and_not_mask {x m : Limb} (h : x.toNat = x.toNat &&& m.toNat) : x &&& ~~~m = 0#26 := by
  rw [← BitVec.toNat_and, BitVec.toNat_inj] at h
  rw [h, BitVec.and_assoc, BitVec.and_not_self]
  exact BitVec.and_zero

/-- Settles O26: INV2 read limb by limb. -/
theorem multiplierLimbsObeyTheirMasks : Obligations.MultiplierLimbsObeyTheirMasks := by
  intro s h
  have hl := limbs_and s.r.value Config.clampMask.toNat
  rw [h.clamped, LimbRegs.limbs_value] at hl
  obtain ⟨-, h1, h2, h3, h4⟩ := LimbVec.mk.injEq .. ▸ hl
  refine ⟨?_, limb_and_not_mask h1, limb_and_not_mask h2, limb_and_not_mask h3, limb_and_not_mask h4⟩
  calc s.r.value = s.r.value &&& Config.clampMask.toNat := h.clamped.symm
    _ ≤ Config.clampMask.toNat := Nat.and_le_right
    _ < 2 ^ 124 := by decide

end Sys2Proof.Machine
end

section
/-! SUPPORT. The decoder by the fields of the word (`30_encoding.md` R81, R83, R86), and the phase and the response
after a command (`10_state.md` R39). -/

namespace Sys2Proof

theorem fieldOP_toNat (w : Word) : (fieldOP w).toNat = w.toNat % 2 ^ 4 := by
  simp [fieldOP, BitVec.extractLsb'_toNat]

theorem fieldFP_toNat (w : Word) : (fieldFP w).toNat = w.toNat / 2 ^ 4 % 2 := by
  simp [fieldFP, BitVec.extractLsb'_toNat, Nat.shiftRight_eq_div_pow]

theorem fieldRSV0_toNat (w : Word) : (fieldRSV0 w).toNat = w.toNat / 2 ^ 5 % 2 ^ 3 := by
  simp [fieldRSV0, BitVec.extractLsb'_toNat, Nat.shiftRight_eq_div_pow]

theorem fieldLEN_toNat (w : Word) : (fieldLEN w).toNat = w.toNat / 2 ^ 8 % 2 ^ 8 := by
  simp [fieldLEN, BitVec.extractLsb'_toNat, Nat.shiftRight_eq_div_pow]

theorem fieldRSV1_toNat (w : Word) : (fieldRSV1 w).toNat = w.toNat / 2 ^ 16 := by
  have := w.isLt
  simp only [fieldRSV1, BitVec.extractLsb'_toNat, Nat.shiftRight_eq_div_pow]
  omega

/-- A partial length is accepted exactly from 1 to 15 (R85). -/
theorem partialLength_cases (n : BitVec 8) :
    (∃ len, partialLength n = some len ∧ len ≠ 0#4 ∧ n = len.setWidth 8) ∨
      (partialLength n = none ∧ (n.toNat = 0 ∨ 16 ≤ n.toNat)) := by
  revert n
  decide


open Sys2Proof.Machine

/-- The seven classes of R86 on the fields as bit vectors. -/
theorem listedIllegal_iff_fields (w : Word) :
    ListedIllegal w.toNat ↔
      (fieldOP w ≠ 1#4 ∧ fieldOP w ≠ 2#4 ∧ fieldOP w ≠ 3#4) ∨
      (fieldRSV0 w ≠ 0#3 ∨ fieldRSV1 w ≠ 0#16) ∨
      (fieldOP w = 1#4 ∧ fieldFP w = 1#1) ∨
      (fieldOP w = 2#4 ∧ fieldFP w = 0#1 ∧ fieldLEN w ≠ 16#8) ∨
      (fieldOP w = 2#4 ∧ fieldFP w = 1#1 ∧ ((fieldLEN w).toNat = 0 ∨ 16 ≤ (fieldLEN w).toNat)) ∨
      (fieldOP w = 3#4 ∧ fieldFP w = 0#1 ∧ fieldLEN w ≠ 0#8) ∨
      (fieldOP w = 3#4 ∧ fieldFP w = 1#1 ∧ ((fieldLEN w).toNat = 0 ∨ 16 ≤ (fieldLEN w).toNat)) := by
  simp only [← BitVec.toNat_inj, ne_eq, BitVec.toNat_ofNat, fieldOP_toNat, fieldFP_toNat, fieldRSV0_toNat,
    fieldLEN_toNat, fieldRSV1_toNat]

/-- A term of a partial block is well-formed exactly when its length is not 0 (R83). -/
theorem absorbp_wellFormed {len : BitVec 4} : (Instr.absorbp len).WellFormed ↔ len ≠ 0#4 := bne_iff_ne
theorem finalp_wellFormed {len : BitVec 4} : (Instr.finalp len).WellFormed ↔ len ≠ 0#4 := bne_iff_ne

/-- The `LEN` of a partial block is from 1 to 15 (R85). -/
theorem partialLength_range {len : BitVec 4} (h : len ≠ 0#4) :
    ¬ ((len.setWidth 8).toNat = 0 ∨ 16 ≤ (len.setWidth 8).toNat) := by
  revert len
  decide

/-- The word spells the fields of this instruction, and zero in the reserved ones. -/
def Spells (w : Word) (i : Instr) : Prop :=
  (fieldOP w, fieldFP w, fieldLEN w) = Laws.encodedFields i ∧ fieldRSV0 w = 0#3 ∧ fieldRSV1 w = 0#16

/-- The word of a well-formed instruction is in none of the classes of R86. -/
theorem Spells.not_listed {w : Word} {i : Instr} (h : Spells w i) (hw : i.WellFormed) : ¬ ListedIllegal w.toNat := by
  obtain ⟨hf, h0, h1⟩ := h
  rw [listedIllegal_iff_fields, h0, h1]
  cases i with
  | init | absorb | final =>
    obtain ⟨hop, hfp, hlen⟩ := by simpa only [Laws.encodedFields, Prod.mk.injEq] using hf
    simp [hop, hfp, hlen]
  | absorbp len | finalp len =>
    obtain ⟨hop, hfp, hlen⟩ := by simpa only [Laws.encodedFields, Prod.mk.injEq] using hf
    have hne : len ≠ 0#4 := bne_iff_ne.1 hw
    rw [hop, hfp, hlen]
    simpa using partialLength_range hne

/-- Either the word is listed as illegal and refused, or it decodes to a well-formed instruction whose fields it
spells. -/
theorem decode_cases (w : Word) :
    (ListedIllegal w.toNat ∧ ∃ x, decode w = .error x) ∨
      ∃ i, decode w = .ok i ∧ i.WellFormed ∧ Spells w i := by
  rw [listedIllegal_iff_fields]
  by_cases hop : fieldOP w ≠ 1#4 ∧ fieldOP w ≠ 2#4 ∧ fieldOP w ≠ 3#4
  · exact .inl ⟨.inl hop, .reservedOp, by rw [decode, if_pos hop]⟩
  by_cases hrsv : fieldRSV0 w ≠ 0#3 ∨ fieldRSV1 w ≠ 0#16
  · exact .inl ⟨.inr (.inl hrsv), .reservedBits, by rw [decode, if_neg hop, if_pos hrsv]⟩
  obtain ⟨h0, h1⟩ : fieldRSV0 w = 0#3 ∧ fieldRSV1 w = 0#16 := by simpa using hrsv
  obtain hf | hf : fieldFP w = 0#1 ∨ fieldFP w = 1#1 := by generalize fieldFP w = b; revert b; decide
  all_goals obtain ho | ho | ho : fieldOP w = 1#4 ∨ fieldOP w = 2#4 ∨ fieldOP w = 3#4 := by tauto
  · exact .inr ⟨.init (fieldLEN w), by simp [decode, h0, h1, hf, ho], rfl, by simp [Laws.encodedFields, hf, ho], h0, h1⟩
  · by_cases hl : fieldLEN w = 16#8
    · exact .inr ⟨.absorb, by simp [decode, h0, h1, hf, ho, hl], rfl, by simp [Laws.encodedFields, hf, ho, hl], h0, h1⟩
    · exact .inl ⟨by simp [hf, ho, hl], .absorbLength, by simp [decode, h0, h1, hf, ho, hl]⟩
  · by_cases hl : fieldLEN w = 0#8
    · exact .inr ⟨.final, by simp [decode, h0, h1, hf, ho, hl], rfl, by simp [Laws.encodedFields, hf, ho, hl], h0, h1⟩
    · exact .inl ⟨by simp [hf, ho, hl], .finalLength, by simp [decode, h0, h1, hf, ho, hl]⟩
  · exact .inl ⟨by simp [hf, ho], .initFinalPartial, by simp [decode, h0, h1, hf, ho]⟩
  · obtain ⟨len, hp, hne, hl⟩ | ⟨hp, hl⟩ := partialLength_cases (fieldLEN w)
    · exact .inr ⟨.absorbp len, by simp [decode, h0, h1, hf, ho, hp], absorbp_wellFormed.2 hne,
        by simp [Laws.encodedFields, hf, ho, hl], h0, h1⟩
    · exact .inl ⟨by simp [hf, ho, hl], .absorbpLength, by simp [decode, h0, h1, hf, ho, hp]⟩
  · obtain ⟨len, hp, hne, hl⟩ | ⟨hp, hl⟩ := partialLength_cases (fieldLEN w)
    · exact .inr ⟨.finalp len, by simp [decode, h0, h1, hf, ho, hp], finalp_wellFormed.2 hne,
        by simp [Laws.encodedFields, hf, ho, hl], h0, h1⟩
    · exact .inl ⟨by simp [hf, ho, hl], .finalpLength, by simp [decode, h0, h1, hf, ho, hp]⟩

/-- `OP` and `LEN` of a decoded word, as integers. -/
theorem Spells.op_len {w : Word} {i : Instr} (h : Spells w i) :
    w.toNat % 2 ^ 4 = (Laws.encodedFields i).1.toNat ∧ w.toNat / 2 ^ 8 % 2 ^ 8 = (Laws.encodedFields i).2.2.toNat := by
  rw [← h.1, fieldOP_toNat, fieldLEN_toNat]
  exact ⟨rfl, rfl⟩

end Sys2Proof

namespace Sys2Proof.Machine

/-- The phase and the response after a legal command in phase `p`: the table of R39, by instruction. -/
def transition (p : Phase) : Instr → Phase × Response
  | .init klen => if klen = 32#8 then (.initialized, .ok) else (.uninitialized, .invalidKeyLength)
  | .absorb | .absorbp _ => if p = .uninitialized then (.uninitialized, .notInitialized) else (.absorbing, .ok)
  | .final | .finalp _ => if p = .uninitialized then (.uninitialized, .notInitialized) else (.finalized, .ok)

/-- Every well-formed instruction takes the transition of R39. -/
theorem exec_transition {i : Instr} (hw : i.WellFormed) (s : State) :
    ∃ t, exec i s = .next t ∧ t.phase = (transition s.phase i).1 ∧ t.err = (transition s.phase i).2 := by
  cases i with
  | init klen =>
    by_cases hk : klen = 32#8
    · exact ⟨_, hk ▸ exec_init_accepts s, by simp [transition, hk]⟩
    · exact ⟨_, exec_init_refuses hk s, by simp [transition, hk]⟩
  | absorb =>
    obtain ⟨hp, he⟩ | ⟨hp, he⟩ := execAbsorb_cases s <;> exact ⟨_, he, by simp [transition, hp]⟩
  | absorbp len =>
    obtain ⟨hp, he⟩ | ⟨hp, he⟩ := execAbsorbp_cases (absorbp_wellFormed.1 hw) s <;>
      exact ⟨_, he, by simp [transition, hp]⟩
  | final =>
    obtain ⟨hp, he⟩ | ⟨hp, he⟩ := execFinal_cases s <;> exact ⟨_, he, by simp [transition, hp]⟩
  | finalp len =>
    obtain ⟨hp, he⟩ | ⟨hp, he⟩ := execFinalp_cases (finalp_wellFormed.1 hw) s <;>
      exact ⟨_, he, by simp [transition, hp]⟩

/-- Settles O52: an illegal word keeps the phase, a legal one takes its instruction's transition. -/
theorem phaseTransitionTable : Obligations.PhaseTransitionTable := by
  intro s w rest hp
  obtain ⟨hl, x, hd⟩ | ⟨i, hd, hw, hs⟩ := decode_cases w
  · exact ⟨_, step_illegal hp hd, fun _ => ⟨rfl, rfl⟩, fun hn => absurd hl hn⟩
  · obtain ⟨t, ht, hph, her⟩ := exec_transition hw { s with port := rest, reply := .accepted }
    obtain ⟨hop, hlen⟩ := hs.op_len
    refine ⟨t, (step_command hp hd).trans ht, fun hl => absurd hl (hs.not_listed hw), fun _ => ?_⟩
    rw [hop, hlen, hph, her]
    cases i <;> simp +contextual [transition, Laws.encodedFields, BitVec.toNat_eq]

end Sys2Proof.Machine
end

section
/-! SUPPORT. The host port by the event performed: only a malformed access stops, and what is pending behind an
event is neither read nor written. Byte lanes, and addresses of the host's map (`20_memory.md`). -/

namespace Sys2Proof.Machine

/-- The events that are not accepted are the malformed accesses (R55, R56). -/
theorem HostEvent.not_accepted_iff {e : HostEvent} : ¬ e.Accepted ↔ ∃ why, e.Malformed why := by
  have refused (size off : Nat) : ¬ AcceptedAccess size off ↔ ∃ why, checkAccess size off = .error why := by
    rw [acceptedAccess_iff]
    cases checkAccess size off <;> simp
  cases e with
  | read size off => exact refused size off
  | write size off v => exact refused size off
  | reset => simp [HostEvent.Malformed]

/-- An accepted event answers the same next state whatever is pending behind it, and leaves that pending (R59). -/
theorem step_accepted {e : HostEvent} (h : e.Accepted) (s : State) :
    ∃ t : State, ∀ rest, step { s with port := e :: rest } = .next { t with port := rest } := by
  obtain rfl | ⟨reg, rfl⟩ | ⟨reg, v, rfl⟩ | hm := e.kind
  · exact ⟨State.reset, fun rest => step_reset rfl⟩
  · refine ⟨s.answer (.value (s.readReg reg)), fun rest => (step_rd rfl).trans ?_⟩
    cases reg <;> rfl
  · cases reg with
    | cmd =>
      cases hd : decode v with
      | ok i =>
        obtain ⟨t, ht⟩ := exec_next i (s.answer .accepted)
        exact ⟨t, fun rest => (step_command rfl hd).trans (exec_withPort i _ rest ht)⟩
      | error x => exact ⟨execIllegal (s.answer .accepted), fun rest => step_illegal rfl hd⟩
    | status => exact ⟨s.answer .accepted, fun rest => step_wr_status rfl⟩
    | block i => exact ⟨(s.answer .accepted).stageBlock i v, fun rest => (step_wr_block rfl).trans rfl⟩
    | key i => exact ⟨(s.answer .accepted).stageKey i v, fun rest => (step_wr_key rfl).trans rfl⟩
    | tag i => exact ⟨s.answer .accepted, fun rest => step_wr_tag rfl⟩
  · exact absurd h (HostEvent.not_accepted_iff.2 hm)

/-- Settles O8: an accepted event makes one next state behind every port, a malformed one the same fault. -/
theorem stepDependsOnTheFirstEventOnly : Obligations.StepDependsOnTheFirstEventOnly := by
  intro s e rest hp
  by_cases h : e.Accepted
  · obtain ⟨t, ht⟩ := step_accepted h s
    have hs : step s = .next { t with port := rest } := by rw [← ht rest, ← hp]
    exact .inl ⟨{ t with port := [] }, ht [], rfl, hs⟩
  · obtain ⟨why, hm⟩ := HostEvent.not_accepted_iff.1 h
    exact .inr ⟨why, _, step_malformed rfl hm, rfl, step_malformed hp hm⟩

/-- Settles O17: an accepted event has a next state, a malformed one its fault. -/
theorem exactlyMalformedAccessesFault : Obligations.ExactlyMalformedAccessesFault := by
  intro s e rest hp
  refine ⟨fun h => ?_, fun h => ?_⟩
  · obtain ⟨why, hm⟩ := HostEvent.not_accepted_iff.1 h
    exact ⟨why, step_malformed hp hm⟩
  · obtain ⟨t, ht⟩ := step_accepted h s
    have hs : step s = .next { t with port := rest } := by rw [← ht rest, ← hp]
    exact ⟨_, hs⟩

/-! ### Byte lanes -/

/-- Byte `k` of an integer is byte `k % 4` of its 32-bit word `k / 4` (R54). -/
theorem byte_eq_byte_of_word (n k : Nat) :
    n / 2 ^ (8 * k) % 2 ^ 8 = n / 2 ^ (32 * (k / 4)) % 2 ^ 32 / 2 ^ (8 * (k % 4)) % 2 ^ 8 := by
  have hk : 8 * k = 32 * (k / 4) + 8 * (k % 4) := by omega
  have hr : k % 4 < 4 := Nat.mod_lt k (by decide)
  rw [hk, Nat.pow_add, ← Nat.div_div_eq_div_mul]
  generalize n / 2 ^ (32 * (k / 4)) = m
  interval_cases k % 4 <;> omega

/-- `BLOCK[i]` is word `i` of the block integer. -/
theorem BlockRegs.value_word (b : BlockRegs) (i : Fin 4) :
    b.value / 2 ^ (32 * i.val) % 2 ^ 32 = (b.get i).toNat := by
  have h0 := b.w0.isLt
  have h1 := b.w1.isLt
  have h2 := b.w2.isLt
  have h3 := b.w3.isLt
  fin_cases i <;> simp only [BlockRegs.value, wordsValue, BlockRegs.get] <;> omega

/-- `KEY[i]` is word `i` of the 32-byte key integer. -/
theorem KeyRegs.value_word (k : KeyRegs) (i : Fin 8) :
    (k.rHalf + k.sHalf * 2 ^ 128) / 2 ^ (32 * i.val) % 2 ^ 32 = (k.get i).toNat := by
  have h0 := k.w0.isLt
  have h1 := k.w1.isLt
  have h2 := k.w2.isLt
  have h3 := k.w3.isLt
  have h4 := k.w4.isLt
  have h5 := k.w5.isLt
  have h6 := k.w6.isLt
  have h7 := k.w7.isLt
  fin_cases i <;> simp only [KeyRegs.rHalf, KeyRegs.sHalf, wordsValue, KeyRegs.get] <;> omega

/-- `TAG[i]` is word `i` of the tag (`10_state.md` R32). -/
theorem tagWord_toNat (s : State) (i : Fin 4) : (s.tagWord i).toNat = s.tag.toNat / 2 ^ (32 * i.val) % 2 ^ 32 := by
  rw [State.tagWord, BitVec.extractLsb'_toNat, Nat.shiftRight_eq_div_pow]

/-- Settles O20: a byte lane of an integer is a byte lane of one of its words, and the words are the registers. -/
theorem byteLanesAreLittleEndian : Obligations.ByteLanesAreLittleEndian := by
  intro s
  refine ⟨fun k => ?_, fun k => ?_, ?_⟩
  · rw [byte_eq_byte_of_word, ← BlockRegs.value_word]
  · rw [byte_eq_byte_of_word, ← KeyRegs.value_word]
  · have ht := s.tag.isLt
    simp only [State.readReg, tagWord_toNat, Fin.coe_ofNat_eq_mod, Nat.reduceMod, Nat.reduceMul]
    omega

/-! ### Addresses -/

theorem windowOffset_base_add {off : Nat} (h : off < Config.windowSize) :
    windowOffset (Config.base + off) = some off := by
  rw [windowOffset, if_pos ⟨Nat.le_add_right .., Nat.add_lt_add_left h _⟩, Nat.add_sub_cancel_left]

theorem windowOffset_outside {addr : Nat} (h : addr < Config.base ∨ Config.base + Config.windowSize ≤ addr) :
    windowOffset addr = none :=
  if_neg (by omega)

/-- Settles O23. -/
theorem windowAddressesReachTheirOffsets : Obligations.WindowAddressesReachTheirOffsets := by
  intro s access addr
  refine ⟨?_, fun h => ?_⟩
  · rintro off h rfl
    rw [submitAt, windowOffset_base_add h]
  · rw [submitAt, windowOffset_outside h]

end Sys2Proof.Machine
end

section
/-! SUPPORT. The command word and its five fields determine each other (`30_encoding.md` R81), so decoding and
encoding are inverse on the well-formed instructions (R83). -/

namespace Sys2Proof

open Sys2Proof.Machine

/-- A word is its five fields (R81). -/
theorem word_eq_iff_fields {v w : Word} :
    v = w ↔ fieldOP v = fieldOP w ∧ fieldFP v = fieldFP w ∧ fieldRSV0 v = fieldRSV0 w ∧
      fieldLEN v = fieldLEN w ∧ fieldRSV1 v = fieldRSV1 w := by
  refine ⟨fun h => by simp [h], fun h => BitVec.eq_of_toNat_eq ?_⟩
  simp only [← BitVec.toNat_inj, fieldOP_toNat, fieldFP_toNat, fieldRSV0_toNat, fieldLEN_toNat, fieldRSV1_toNat] at h
  omega

theorem encode_spells (i : Instr) : Spells (encode i) i := by
  cases i with
  | init klen => exact Laws.EncodedFields.init klen
  | absorb => exact Laws.EncodedFields.absorb
  | absorbp len => exact Laws.EncodedFields.absorbp len
  | final => exact Laws.EncodedFields.final
  | finalp len => exact Laws.EncodedFields.finalp len

/-- The word that spells an instruction is its encoding. -/
theorem spells_iff_encode_eq {w : Word} {i : Instr} : Spells w i ↔ encode i = w := by
  refine ⟨fun h => ?_, fun h => h ▸ encode_spells i⟩
  obtain ⟨hf, h0, h1⟩ := h
  obtain ⟨hf', h0', h1'⟩ := encode_spells i
  obtain ⟨hop, hfp, hlen⟩ := by simpa only [Prod.mk.injEq] using hf'.trans hf.symm
  exact word_eq_iff_fields.2 ⟨hop, hfp, h0'.trans h0.symm, hlen, h1'.trans h1.symm⟩

/-- No two instructions spell the same fields (R83). -/
theorem encodedFields_injective : Function.Injective Laws.encodedFields := by
  have widen {a b : BitVec 4} (h : a.setWidth 8 = b.setWidth 8) : a = b := by
    revert a b
    decide
  intro i j h
  cases i <;> cases j
  case init.init => exact congrArg Instr.init (Prod.mk.inj (Prod.mk.inj h).2).2
  case absorb.absorb | final.final => rfl
  case absorbp.absorbp => exact congrArg Instr.absorbp (widen (Prod.mk.inj (Prod.mk.inj h).2).2)
  case finalp.finalp => exact congrArg Instr.finalp (widen (Prod.mk.inj (Prod.mk.inj h).2).2)
  -- Two different rows differ in `OP` or in `FP`.
  all_goals simp [Laws.encodedFields] at h

theorem encode_injective : Function.Injective encode := fun _ j h =>
  encodedFields_injective ((encode_spells _).1.symm.trans (h ▸ (encode_spells j).1))

/-- The decoder, said once: a word decodes to an instruction exactly when that is well-formed and has this word. -/
theorem decode_eq_ok_iff {w : Word} {i : Instr} : decode w = .ok i ↔ i.WellFormed ∧ encode i = w := by
  obtain ⟨hl, x, hx⟩ | ⟨j, hd, hw, hs⟩ := decode_cases w
  · refine ⟨fun h => by simp [hx] at h, fun ⟨hw, he⟩ => absurd hl ?_⟩
    exact (spells_iff_encode_eq.2 he).not_listed hw
  · rw [hd, Except.ok.injEq]
    have he : encode j = w := spells_iff_encode_eq.1 hs
    exact ⟨fun h => h ▸ ⟨hw, he⟩, fun h => encode_injective (he.trans h.2.symm)⟩

/-- Settles O1: an instruction has its own word. -/
theorem encodeThenDecodeReturnsInstruction : Obligations.EncodeThenDecodeReturnsInstruction :=
  fun _ hw => decode_eq_ok_iff.2 ⟨hw, rfl⟩

/-- Settles O2: the decoder answers only the instruction that has the word. -/
theorem decodedWordIsItsInstructionsEncoding : Obligations.DecodedWordIsItsInstructionsEncoding :=
  fun _ _ => decode_eq_ok_iff.1

/-! ### The rows of the table -/

/-- The mask of a row of R83 that fixes the bits `L` of `LEN`: every other field is fixed whole. -/
def rowMask (L : BitVec 8) : Word := 0xFFFF#16 ++ L ++ 0xFF#8

theorem fields_rowMask (L : BitVec 8) :
    fieldOP (rowMask L) = .allOnes 4 ∧ fieldFP (rowMask L) = .allOnes 1 ∧ fieldRSV0 (rowMask L) = .allOnes 3 ∧
      fieldRSV1 (rowMask L) = .allOnes 16 := by
  revert L
  decide

/-- Two words alike under a row's mask are alike in every field but `LEN`. -/
theorem fields_eq_of_rowMask {v w : Word} {L : BitVec 8} (h : v &&& rowMask L = w &&& rowMask L) :
    fieldOP v = fieldOP w ∧ fieldFP v = fieldFP w ∧ fieldRSV0 v = fieldRSV0 w ∧ fieldRSV1 v = fieldRSV1 w := by
  obtain ⟨hop, hfp, h0, h1⟩ := fields_rowMask L
  obtain ⟨hop', hfp', h0', -, h1'⟩ := word_eq_iff_fields.1 h
  simp only [fieldOP, fieldFP, fieldRSV0, fieldRSV1, BitVec.extractLsb'_and] at *
  simp only [hop, hfp, h0, h1, BitVec.and_allOnes] at hop' hfp' h0' h1'
  exact ⟨hop', hfp', h0', h1'⟩

/-- The `LEN` of a partial form is its length. -/
theorem encodedFields_absorbp_len (len : BitVec 4) : (Laws.encodedFields (.absorbp len)).2.2.toNat = len.toNat :=
  BitVec.toNat_setWidth_of_le (by decide)
theorem encodedFields_finalp_len (len : BitVec 4) : (Laws.encodedFields (.finalp len)).2.2.toNat = len.toNat :=
  BitVec.toNat_setWidth_of_le (by decide)

/-- A row of R83: the word is the instruction's under the row's mask, and `LEN` is the instruction's. -/
theorem decode_eq_ok_iff_row (L : BitVec 8) {w : Word} {i : Instr} :
    decode w = .ok i ↔ i.WellFormed ∧ w &&& rowMask L = encode i &&& rowMask L ∧
      (Laws.encodedFields i).2.2.toNat = w.toNat / 2 ^ 8 % 2 ^ 8 := by
  rw [decode_eq_ok_iff]
  refine and_congr_right fun _ => ⟨fun h => h ▸ ⟨rfl, (encode_spells i).op_len.2.symm⟩, fun ⟨hm, hl⟩ => ?_⟩
  obtain ⟨hop, hfp, h0, h1⟩ := fields_eq_of_rowMask hm.symm
  have hlen : fieldLEN (encode i) = fieldLEN w := by
    rw [← BitVec.toNat_inj, fieldLEN_toNat, fieldLEN_toNat, (encode_spells i).op_len.2, hl]
  exact word_eq_iff_fields.2 ⟨hop, hfp, h0, hlen, h1⟩

/-- Settles O3: the row's match is the word of its instruction under the row's mask, whatever the operand. -/
theorem legalWordsAreTheTableRows : Obligations.LegalWordsAreTheTableRows := by
  intro w
  have hwhole : w &&& 0xFFFFFFFF#32 = w := BitVec.and_allOnes
  refine ⟨fun klen => ?_, ?_, fun len => ?_, ?_, fun len => ?_⟩
  · have hmatch : encode (.init klen) &&& rowMask 0x00#8 = 0x00000001#32 := by revert klen; decide
    rw [decode_eq_ok_iff_row 0x00#8, hmatch]
    exact and_iff_right rfl
  · rw [decode_eq_ok_iff, hwhole]
    exact (and_iff_right rfl).trans eq_comm
  · have hmatch : encode (.absorbp len) &&& rowMask 0xF0#8 = 0x00000012#32 := by revert len; decide
    rw [decode_eq_ok_iff_row 0xF0#8, hmatch, absorbp_wellFormed, encodedFields_absorbp_len]
    exact and_rotate
  · rw [decode_eq_ok_iff, hwhole]
    exact (and_iff_right rfl).trans eq_comm
  · have hmatch : encode (.finalp len) &&& rowMask 0xF0#8 = 0x00000013#32 := by revert len; decide
    rw [decode_eq_ok_iff_row 0xF0#8, hmatch, finalp_wellFormed, encodedFields_finalp_len]
    exact and_rotate

/-- Settles O4: a listed word is refused and answered `IllegalCommand`; any other decodes. -/
theorem illegalWordsAreTheListedClasses : Obligations.IllegalWordsAreTheListedClasses := by
  intro w
  obtain ⟨hl, x, hx⟩ | ⟨i, hd, hw, hs⟩ := decode_cases w
  · exact ⟨⟨fun _ => hl, fun _ => ⟨x, hx⟩⟩, fun _ s rest hp => step_illegal hp hx⟩
  · have hn := hs.not_listed hw
    exact ⟨⟨fun ⟨x, hx⟩ => by simp [hd] at hx, fun hl => absurd hl hn⟩, fun hl => absurd hl hn⟩

/-! ### The count of the legal words -/

/-- Every bit vector of a width, once each. -/
def allBitVecs (n : Nat) : List (BitVec n) := (List.finRange (2 ^ n)).map BitVec.ofFin

theorem mem_allBitVecs {n : Nat} (x : BitVec n) : x ∈ allBitVecs n :=
  List.mem_map.2 ⟨x.toFin, List.mem_finRange _, rfl⟩

theorem nodup_allBitVecs (n : Nat) : (allBitVecs n).Nodup :=
  (List.nodup_finRange _).map fun _ _ h => BitVec.ofFin.inj h

/-- Every term of `Instr`, row by row, those with `len = 0` included. -/
def allInstrs : List Instr :=
  (allBitVecs 8).map .init ++ .absorb :: (allBitVecs 4).map .absorbp ++ .final :: (allBitVecs 4).map .finalp

theorem mem_allInstrs (i : Instr) : i ∈ allInstrs := by
  cases i <;> simp [allInstrs, mem_allBitVecs]

theorem nodup_allInstrs : allInstrs.Nodup := by
  have hinit : ((allBitVecs 8).map Instr.init).Nodup := (nodup_allBitVecs 8).map fun _ _ h => Instr.init.inj h
  have habsorbp : ((allBitVecs 4).map Instr.absorbp).Nodup := (nodup_allBitVecs 4).map fun _ _ h => Instr.absorbp.inj h
  have hfinalp : ((allBitVecs 4).map Instr.finalp).Nodup := (nodup_allBitVecs 4).map fun _ _ h => Instr.finalp.inj h
  simp only [allInstrs, List.append_assoc, List.cons_append]
  refine hinit.append (List.nodup_cons.2 ⟨by simp, habsorbp.append (List.nodup_cons.2 ⟨by simp, hfinalp⟩) ?_⟩) ?_
  · rintro _ hi hj
    obtain ⟨len, -, rfl⟩ := List.mem_map.1 hi
    simp at hj
  · rintro _ hi hj
    obtain ⟨klen, -, rfl⟩ := List.mem_map.1 hi
    simp at hj

/-- 256 + 1 + 15 + 1 + 15, row by row. -/
theorem length_wellFormed_allInstrs : (allInstrs.filter Instr.wellFormed).length = 288 := by
  have hinit : (((allBitVecs 8).map Instr.init).filter Instr.wellFormed).length = 256 := by
    rw [List.filter_eq_self.2 (by simp [Instr.wellFormed])]
    simp [allBitVecs]
  have habsorbp : (((allBitVecs 4).map Instr.absorbp).filter Instr.wellFormed).length = 15 := by decide
  have hfinalp : (((allBitVecs 4).map Instr.finalp).filter Instr.wellFormed).length = 15 := by decide
  rw [allInstrs, List.filter_append, List.filter_append, List.filter_cons_of_pos rfl, List.filter_cons_of_pos rfl]
  simp only [List.length_append, List.length_cons, hinit, habsorbp, hfinalp]

/-- The legal words: those of the well-formed instructions. -/
def legalWords : List Word := (allInstrs.filter Instr.wellFormed).map encode

/-- Settles O6: the words of the 288 well-formed terms among all 290, which encoding keeps apart. -/
theorem thereAre288LegalWords : Obligations.ThereAre288LegalWords := by
  refine ⟨legalWords, (nodup_allInstrs.filter _).map encode_injective, ?_, fun w => ?_⟩
  · rw [legalWords, List.length_map, length_wellFormed_allInstrs]
  · simp only [legalWords, List.mem_map, List.mem_filter, mem_allInstrs, true_and, decode_eq_ok_iff]

/-- Settles O5: the decoder evaluated on the eight words. -/
theorem specWordsDecodeAsTheTableSays : Obligations.SpecWordsDecodeAsTheTableSays := by
  unfold Obligations.SpecWordsDecodeAsTheTableSays
  decide

/-- Settles O7: CMD stands at offset 0, and the step of a write to it is the decoded instruction. -/
theorem stepRunsTheDecodedInstruction : Obligations.StepRunsTheDecodedInstruction :=
  fun _ _ _ _ => step_command

end Sys2Proof
end

section
/-! SUPPORT. `LDKEY` (`30_encoding.md` R89): eight writes of KEY, one after another. -/

namespace Sys2Proof.Machine

/-- Writes of registers of KEY, one after another. -/
theorem performs_stageKeys (v : Fin 8 → Word) (is : List (Fin 8)) (s : State) :
    Performs (is.map fun i => wr (.key i) (v i)) s
      { s with key := is.foldl (fun key i => key.set i (v i)) s.key,
               reply := if is = [] then s.reply else .accepted } := by
  induction is generalizing s with
  | nil => exact .nil s
  | cons i is ih =>
    have h := (performs_stageKey i (v i) s).append (ih _)
    simpa using h

/-- Writing all eight registers of KEY replaces it. -/
theorem foldl_set_finRange (v : Fin 8 → Word) (key : KeyRegs) :
    (List.finRange 8).foldl (fun key i => key.set i (v i)) key = ⟨v 0, v 1, v 2, v 3, v 4, v 5, v 6, v 7⟩ := rfl

/-- The key that `LDKEY k` stages. -/
def keyOf (k : List Byte) : KeyRegs :=
  ⟨byteWord k 0, byteWord k 1, byteWord k 2, byteWord k 3, byteWord k 4, byteWord k 5, byteWord k 6, byteWord k 7⟩

theorem performs_ldkey (k : List Byte) (s : State) :
    Performs (ldkey k) s { s with key := keyOf k, reply := .accepted } := by
  have h := performs_stageKeys (fun i => byteWord k i.val) (List.finRange 8) s
  rwa [foldl_set_finRange, if_neg (by decide)] at h

/-- The two halves of a staged key are the integers of its halves (R54, `40_init.md` R111). -/
theorem keyOf_halves {k : List Byte} (h : k.length = 32) :
    (keyOf k).rHalf = leValue (k.take 16) ∧ (keyOf k).sHalf = leValue (k.drop 16) := by
  constructor
  · exact wordsValue_byteWord (i := 0) (by omega)
  · rw [← List.take_of_length_le (l := k.drop 16) (i := 16) (by rw [List.length_drop]; omega)]
    exact wordsValue_byteWord (i := 4) (by omega)

/-- Settles O55: eight writes of KEY, whose halves are the key's. -/
theorem ldkeyStagesTheKey : Obligations.LdkeyStagesTheKey := by
  intro s k rest hk hp
  refine ⟨{ s with key := keyOf k, port := rest, reply := .accepted }, ?_, rfl, keyOf_halves hk⟩
  have h := performs_ldkey k s rest
  rwa [← hp] at h

end Sys2Proof.Machine
end

section
/-! SUPPORT. What `INIT` loads (`40_init.md` R110 to R112), the data commands in a phase with a key, and a
multiplier of 0 (R118). -/

namespace Sys2Proof.Machine

/-- The stored multiplier is the `r` half of the key under the mask of R112. -/
theorem State.acceptKey_r_value_eq_and (s : State) :
    s.acceptKey.r.value = s.key.rHalf &&& Config.clampMask.toNat := by
  rw [State.acceptKey_r_value, KeyRegs.clamped, BitVec.toNat_and, BitVec.toNat_ofNat,
    Nat.mod_eq_of_lt s.key.rHalf_lt]

/-- The `s` half of the key is loaded whole (R114). -/
theorem State.acceptKey_s_toNat (s : State) : s.acceptKey.s.toNat = s.key.sHalf := by
  rw [State.acceptKey_s, BitVec.toNat_ofNat, Nat.mod_eq_of_lt s.key.sHalf_lt]

/-- Settles O24: the halves of the key are the sums of its words. -/
theorem initAcceptsTheStagedKey : Obligations.InitAcceptsTheStagedKey :=
  ⟨decode_eq_ok_iff.2 ⟨rfl, rfl⟩, fun s =>
    ⟨s.acceptKey, exec_init_accepts s, s.acceptKey_r_value_eq_and, s.acceptKey_s_toNat, rfl⟩⟩

/-- The bytes of the mask (R112). -/
theorem clampMask_byte (k : Fin 16) :
    Config.clampMask.toNat / 2 ^ (8 * k.val) % 2 ^ 8 =
      if k.val = 3 ∨ k.val = 7 ∨ k.val = 11 ∨ k.val = 15 then 0x0f
      else if k.val = 4 ∨ k.val = 8 ∨ k.val = 12 then 0xfc else 0xff := by
  revert k
  decide

/-- Settles O25: a byte of the masked key half is the byte of the half under the byte of the mask. -/
theorem initClampsByteByByte : Obligations.InitClampsByteByByte := by
  intro s t h
  cases (exec_init_accepts s).symm.trans h
  rw [State.acceptKey_r_value_eq_and]
  refine ⟨?_, fun k => ?_⟩
  · calc s.key.rHalf &&& Config.clampMask.toNat ≤ Config.clampMask.toNat := Nat.and_le_right
      _ < 2 ^ 124 := by decide
  · rw [Nat.and_div_two_pow, Nat.and_mod_two_pow, clampMask_byte]

theorem KeyRegs.rHalf_congr {k l : KeyRegs} (h : ∀ i : Fin 8, i.val < 4 → k.get i = l.get i) :
    k.rHalf = l.rHalf := by
  have h0 : k.w0 = l.w0 := h 0 (by decide)
  have h1 : k.w1 = l.w1 := h 1 (by decide)
  have h2 : k.w2 = l.w2 := h 2 (by decide)
  have h3 : k.w3 = l.w3 := h 3 (by decide)
  rw [KeyRegs.rHalf, KeyRegs.rHalf, h0, h1, h2, h3]

theorem KeyRegs.sHalf_congr {k l : KeyRegs} (h : ∀ i : Fin 8, 4 ≤ i.val → k.get i = l.get i) :
    k.sHalf = l.sHalf := by
  have h4 : k.w4 = l.w4 := h 4 (by decide)
  have h5 : k.w5 = l.w5 := h 5 (by decide)
  have h6 : k.w6 = l.w6 := h 6 (by decide)
  have h7 : k.w7 = l.w7 := h 7 (by decide)
  rw [KeyRegs.sHalf, KeyRegs.sHalf, h4, h5, h6, h7]

/-- Settles O28: `r` is determined by the `r` half of KEY, and `s` by the other. -/
theorem initDependsOnTheStagedKeyAlone : Obligations.InitDependsOnTheStagedKeyAlone := by
  intro s t u v hu hv
  cases (exec_init_accepts s).symm.trans hu
  cases (exec_init_accepts t).symm.trans hv
  refine ⟨fun h => LimbRegs.ext_value ?_, fun h => BitVec.eq_of_toNat_eq ?_⟩
  · rw [State.acceptKey_r_value_eq_and, State.acceptKey_r_value_eq_and, KeyRegs.rHalf_congr h]
  · rw [State.acceptKey_s_toNat, State.acceptKey_s_toNat, KeyRegs.sHalf_congr h]

/-- Settles O27. -/
theorem initWithAnotherLengthTearsDown : Obligations.InitWithAnotherLengthTearsDown :=
  fun _ s hk => exec_init_refuses (fun h => hk (congrArg BitVec.toNat h)) s

/-! ### The data commands in a phase with a key -/

section

variable {s : State} (hp : s.phase ≠ .uninitialized)

include hp

theorem exec_absorb_live : exec .absorb s = .next (s.accumulate (absorbStep s.r s.h s.block.fullInteger)) :=
  ((execAbsorb_cases s).resolve_left fun h => hp h.1).2

theorem exec_absorbp_live {len : BitVec 4} (hl : len ≠ 0#4) :
    exec (.absorbp len) s = .next (s.accumulate (absorbStep s.r s.h (s.block.partialInteger len.toNat))) :=
  ((execAbsorbp_cases hl s).resolve_left fun h => hp h.1).2

theorem exec_final_live : exec .final s = .next (s.deliver (padAdd (canon s.h) s.s)) :=
  ((execFinal_cases s).resolve_left fun h => hp h.1).2

theorem exec_finalp_live {len : BitVec 4} (hl : len ≠ 0#4) :
    exec (.finalp len) s = .next
      (s.deliver (padAdd (canon (absorbStep s.r s.h (s.block.partialInteger len.toNat))) s.s)) :=
  ((execFinalp_cases hl s).resolve_left fun h => hp h.1).2

end

/-! ### A multiplier of 0 -/

/-- An absorption with the multiplier 0 stores 0 itself, no other multiple of the prime: the columns are 0, and a
carry pass keeps 0. -/
theorem absorbStep_zero_multiplier {r : LimbRegs} (hr : r.value = 0) (x : LimbRegs) {n : Nat} (hn : n < 2 ^ 129) :
    (absorbStep r x n).value = 0 := by
  have hcols : (mulFold (limbAdd x.toVec (limbs n)) r.toVec).value = 0 := by
    have hprod := mulFold_value (limbAdd x.toVec (limbs n)) r.toVec
    rw [show r.toVec.value = 0 from hr, Nat.mul_zero] at hprod
    exact (Nat.add_eq_zero_iff.1 hprod.symm).1
  simp [absorbStep_value r x hn, carryPass_value, hcols]

/-- The pad addition to the canonical value of 0 gives `s` (`42_finalize.md` R174). -/
theorem padAdd_canon_zero {x : LimbRegs} (hx : x.value = 0) (s : Wide) : padAdd (canon x) s = s := by
  rw [canon_eq_mod, hx, Nat.zero_mod, padAdd, Nat.zero_add, BitVec.ofNat_toNat, BitVec.setWidth_eq]

/-- FINAL on the accumulator 0 delivers `s`. -/
theorem exec_final_zero {s : State} (hp : s.phase ≠ .uninitialized) (hh : s.h.value = 0) :
    exec .final s = .next (s.deliver s.s) := by
  rw [exec_final_live hp, padAdd_canon_zero hh]

/-- An instruction that absorbs a block integer with the multiplier 0 leaves the accumulator 0, and FINAL after it
delivers `s`. -/
theorem absorption_zero_multiplier {i : Instr} {s : State} {n : Nat} (hr : s.r.value = 0) (hn : n < 2 ^ 129)
    (he : exec i s = .next (s.accumulate (absorbStep s.r s.h n))) :
    ∃ t u, exec i s = .next t ∧ t.h.value = 0 ∧ exec .final t = .next u ∧ u.tag = s.s := by
  have hh : (s.accumulate (absorbStep s.r s.h n)).h.value = 0 := absorbStep_zero_multiplier hr s.h hn
  exact ⟨_, _, he, hh, exec_final_zero (by simp) hh, rfl⟩

/-- Settles O39: the accumulator is 0 after either absorption, and the canonical value of 0 adds nothing to `s`. -/
theorem zeroMultiplierGivesTheMask : Obligations.ZeroMultiplierGivesTheMask := by
  intro s hp hr
  refine ⟨absorption_zero_multiplier hr s.block.fullInteger_lt (exec_absorb_live hp),
    fun hh => ⟨_, exec_final_zero hp hh, rfl⟩, fun len hl => ?_⟩
  have hn : s.block.partialInteger len.toNat < 2 ^ 129 := (s.block.partialInteger_lt len).trans (by decide)
  exact ⟨absorption_zero_multiplier hr hn (exec_absorbp_live hp hl),
    _, exec_finalp_live hp hl, padAdd_canon_zero (absorbStep_zero_multiplier hr s.h hn) s.s⟩

end Sys2Proof.Machine
end

section
/-! SUPPORT. One absorption: the datapath's contract (`41_absorb.md` R140, R143), the widths it needs (R142), and the
accumulator after many (R147). -/

namespace Sys2Proof.Machine

/-- Settles O29: (a) is the residue of the two folds, (b) that pass 3 leaves normalised limbs. -/
theorem absorbStepMeetsItsContract : Obligations.AbsorbStepMeetsItsContract := by
  intro r x n hn
  obtain ⟨y0, y1, y2, y3, y4⟩ := absorbStep_normalised r x hn
  exact ⟨absorbStep_residue r x hn, Nat.le_of_lt_succ y0, Nat.le_of_lt_succ y1, Nat.le_of_lt_succ y2,
    Nat.le_of_lt_succ y3, Nat.le_of_lt_succ y4, rfl, LimbRegs.value_lt _⟩

/-- Settles O30: each of the two carry passes is a fold, and storing drops nothing. -/
theorem absorbStepIsTwoFolds : Obligations.AbsorbStepIsTwoFolds := by
  intro r x n hn
  rw [absorbStep_value r x hn, carryPass_value, carryPass_value]

/-! ### Widths -/

/-- A limb sum is at most twice the largest limb (R135, R142). -/
theorem LimbVec.Normalised.limbAdd_le {x m : LimbVec} (hx : x.Normalised) (hm : m.Normalised) :
    (limbAdd x m).x0 ≤ 2 ^ 27 - 2 ∧ (limbAdd x m).x1 ≤ 2 ^ 27 - 2 ∧ (limbAdd x m).x2 ≤ 2 ^ 27 - 2 ∧
      (limbAdd x m).x3 ≤ 2 ^ 27 - 2 ∧ (limbAdd x m).x4 ≤ 2 ^ 27 - 2 := by
  obtain ⟨x0, x1, x2, x3, x4⟩ := hx
  obtain ⟨m0, m1, m2, m3, m4⟩ := hm
  simp only [limbAdd]
  omega

/-- A limb sum times a limb has 53 bits. -/
theorem limb_mul_lt {u v : Nat} (hu : u < 2 ^ 27) (hv : v < 2 ^ 26) : u * v < 2 ^ 53 :=
  (Nat.mul_lt_mul'' hu hv).trans_eq (by decide)

/-- The bounds of R142 on the columns. -/
def LimbVec.FitsColumns (d : LimbVec) : Prop :=
  d.x0 < 25 * 2 ^ 53 ∧ d.x1 < 25 * 2 ^ 53 ∧ d.x2 < 25 * 2 ^ 53 ∧ d.x3 < 25 * 2 ^ 53 ∧ d.x4 < 5 * 2 ^ 53

/-- A column is the sum of five products, each with a limb or five times a limb (R136). -/
theorem mulFold_fitsColumns {a q : LimbVec} (ha : a.Below (2 ^ 27)) (hq : q.Normalised) :
    (mulFold a q).FitsColumns := by
  obtain ⟨a0, a1, a2, a3, a4⟩ := ha
  obtain ⟨q0, q1, q2, q3, q4⟩ := hq
  have fold (u v : Nat) : u * (5 * v) = 5 * (u * v) := Nat.mul_left_comm u 5 v
  simp only [LimbVec.FitsColumns, mulFold, fold]
  refine ⟨?_, ?_, ?_, ?_, ?_⟩
  · linarith only [limb_mul_lt a0 q0, limb_mul_lt a1 q4, limb_mul_lt a2 q3, limb_mul_lt a3 q2, limb_mul_lt a4 q1]
  · linarith only [limb_mul_lt a0 q1, limb_mul_lt a1 q0, limb_mul_lt a2 q4, limb_mul_lt a3 q3, limb_mul_lt a4 q2]
  · linarith only [limb_mul_lt a0 q2, limb_mul_lt a1 q1, limb_mul_lt a2 q0, limb_mul_lt a3 q4, limb_mul_lt a4 q3]
  · linarith only [limb_mul_lt a0 q3, limb_mul_lt a1 q2, limb_mul_lt a2 q1, limb_mul_lt a3 q0, limb_mul_lt a4 q4]
  · linarith only [limb_mul_lt a0 q4, limb_mul_lt a1 q3, limb_mul_lt a2 q2, limb_mul_lt a3 q1, limb_mul_lt a4 q0]

/-- Pass 2 carries at most 1 out of limb 4: pass 1 leaves less than `2^131` (R137, R138). -/
theorem carryChain_carryPass_le_one {d : LimbVec} (hd : d.value < 2 ^ 163) : (carryChain 0 (carryPass d)).2 ≤ 1 := by
  rw [(carryChain_divMod 0 (carryPass d)).2, carryPass_value]
  omega

/-- Settles O31: bounds on limbs give bounds on products, these on columns, and these on the carries. -/
theorem datapathFitsItsWidths : Obligations.DatapathFitsItsWidths := by
  intro r x n hn a q d e0 e1 e2 e3 e4 y
  have ha : a.Below (2 ^ 27) := limbAdd_below x hn
  have hq : q.Normalised := r.toVec_normalised
  have hd : d.FitsColumns := mulFold_fitsColumns ha hq
  have hsum : ∀ u ∈ [a.x0, a.x1, a.x2, a.x3, a.x4], u < 2 ^ 27 := by simpa [LimbVec.Below] using ha
  have hlimb : ∀ v ∈ [q.x1, q.x2, q.x3, q.x4], v < 2 ^ 26 := by simpa [LimbVec.Normalised] using hq.2
  have ⟨d0, d1, d2, d3, d4⟩ := hd
  have he : ∀ e ∈ [e0, e1, e2, e3, e4], e < 2 ^ 59 ∧ e / 2 ^ 26 < 2 ^ 33 := by
    simp only [List.forall_mem_cons, List.not_mem_nil, false_implies, implies_true, and_true]
    omega
  have he4 : e4 / 2 ^ 26 < 2 ^ 30 ∧ 5 * (e4 / 2 ^ 26) < 26 * 2 ^ 27 := by omega
  have hy : y.x0 < 2 ^ 33 := by
    have : y.x0 = e0 % 2 ^ 26 + 5 * (e4 / 2 ^ 26) := rfl
    omega
  have hcarry : (carryChain 0 y).2 ≤ 1 := carryChain_carryPass_le_one (mulFold_value_lt ha r)
  refine ⟨x.toVec_normalised.limbAdd_le (limbs_normalised (hn.trans (by decide))),
    ⟨Nat.le_of_lt_succ hq.1, fun v hv => ?_⟩, fun u hu => ⟨?_, fun v hv => ?_⟩, hd, he, rfl, he4.1,
    he4.2.trans (by decide), hy, Nat.div_lt_of_lt_mul hy, hcarry⟩
  · have := hlimb v hv
    omega
  · exact (limb_mul_lt (hsum u hu) hq.1).trans (by decide)
  · have := limb_mul_lt (hsum u hu) (hlimb v hv)
    rw [Nat.mul_left_comm]
    omega

/-! ### Many absorptions -/

/-- Absorptions from the accumulator 0 are Horner's scheme (R134, R147). -/
theorem absorbSteps_residue (r : LimbRegs) {x : LimbRegs} (hx : x.value = 0) (ns : List Nat)
    (hns : ∀ n ∈ ns, n < 2 ^ 129) :
    (ns.foldl (fun h n => absorbStep r h n) x).value % Config.modulus = polyEval r.value ns % Config.modulus := by
  induction ns using List.reverseRecOn with
  | nil => rw [List.foldl_nil, hx, polyEval]
  | append_singleton ns n ih =>
    have hinit := ih fun m hm => hns m (List.mem_append_left _ hm)
    have hn : n < 2 ^ 129 := hns n (by simp)
    rw [List.foldl_concat, polyEval_concat, absorbStep_residue r _ hn, Nat.mul_mod, Nat.add_mod, hinit, ← Nat.add_mod,
      ← Nat.mul_mod]

/-- Settles O37. -/
theorem absorptionsEvaluateThePolynomial : Obligations.AbsorptionsEvaluateThePolynomial := by
  intro s t ns ht hns
  cases (exec_init_accepts s).symm.trans ht
  exact absorbSteps_residue _ LimbRegs.value_zero ns hns

end Sys2Proof.Machine
end

section
/-! SUPPORT. `ABSORB` and `ABSORBP` (`41_absorb.md` R144, R145), and what a block integer keeps of its block (R130 to
R132). -/

namespace Sys2Proof.Machine

/-- A well-formed data command without a key is refused (`60_exceptions.md` R234). -/
theorem exec_unkeyed {i : Instr} {s : State} (hw : i.WellFormed) (hi : ∀ klen, i ≠ .init klen)
    (hp : s.phase = .uninitialized) : exec i s = .next (s.respond .notInitialized) := by
  obtain ⟨h, -⟩ | ⟨klen, h, -⟩ | ⟨h, -⟩ | ⟨-, -, h⟩ | ⟨-, -, -, h, -⟩ | ⟨-, -, h, -⟩ :=
    exec_cases i s
  · exact absurd h (hi _)
  · exact absurd h (hi klen)
  · exact absurd (hw.symm.trans h) (by decide)
  · exact h
  · exact absurd hp h
  · exact absurd hp h

/-- Settles O32. -/
theorem absorbFoldsTheFullBlock : Obligations.AbsorbFoldsTheFullBlock :=
  ⟨decode_eq_ok_iff.2 ⟨rfl, rfl⟩, fun _ => ⟨exec_unkeyed rfl (by simp), exec_absorb_live⟩⟩

/-- Settles O33. -/
theorem absorbpFoldsThePartialBlock : Obligations.AbsorbpFoldsThePartialBlock := by
  intro len hl
  have hw : (Instr.absorbp len).WellFormed := absorbp_wellFormed.2 hl
  exact ⟨decode_eq_ok_iff.2 ⟨hw, rfl⟩, fun _ => ⟨exec_unkeyed hw (by simp), fun hp => exec_absorbp_live hp hl⟩⟩

/-- Settles O34: the contract of one absorption at the block integers of R130 and R131. -/
theorem absorptionMultipliesTheAccumulator : Obligations.AbsorptionMultipliesTheAccumulator := fun s hp =>
  ⟨⟨_, exec_absorb_live hp, absorbStep_residue s.r s.h s.block.fullInteger_lt⟩, fun len hl =>
    ⟨_, exec_absorbp_live hp hl, absorbStep_residue s.r s.h ((s.block.partialInteger_lt len).trans (by decide))⟩⟩

/-! ### Block integers -/

/-- Two integers agree modulo `2^(8l)` exactly when they agree in their `l` lowest bytes. -/
theorem mod_eq_iff_bytes (u w l : Nat) :
    u % 2 ^ (8 * l) = w % 2 ^ (8 * l) ↔ ∀ k, k < l → u / 2 ^ (8 * k) % 2 ^ 8 = w / 2 ^ (8 * k) % 2 ^ 8 := by
  induction l with
  | zero => simp [Nat.mod_one]
  | succ l ih =>
    rw [Nat.forall_lt_succ_right, ← ih, Nat.mul_succ, pow_add]
    generalize 2 ^ (8 * l) = B
    refine ⟨fun h => ⟨?_, ?_⟩, fun ⟨hlow, hbyte⟩ => by rw [Nat.mod_mul, Nat.mod_mul, hlow, hbyte]⟩
    · simpa only [Nat.mod_mul_right_mod] using congrArg (· % B) h
    · simpa only [Nat.mod_mul_right_div_self] using congrArg (· / B) h

/-- The marker is the top bit of a block integer, so it tells the length (R132). -/
theorem BlockRegs.log2_partialInteger (b : BlockRegs) (l : Nat) : (b.partialInteger l).log2 = 8 * l := by
  have hm : b.value % 2 ^ (8 * l) < 2 ^ (8 * l) := Nat.mod_lt _ (Nat.two_pow_pos _)
  rw [BlockRegs.partialInteger, Nat.log2_eq_iff (by omega), Nat.pow_succ]
  omega

/-- Settles O36: equal integers have equal markers, hence equal lengths and then equal data bytes. -/
theorem blockIntegersDoNotCollide : Obligations.BlockIntegersDoNotCollide := by
  refine ⟨fun b => ?_, fun b c l m _ _ _ _ h => ?_⟩
  · rw [BlockRegs.partialInteger, Nat.mod_eq_of_lt b.value_lt, BlockRegs.fullInteger]
  · have hlog := congrArg Nat.log2 h
    rw [b.log2_partialInteger, c.log2_partialInteger] at hlog
    obtain rfl : l = m := by omega
    exact ⟨rfl, (mod_eq_iff_bytes ..).1 (Nat.add_right_cancel h)⟩

/-! ### Bytes beyond the length -/

theorem requireKey_withBlock (s t : State) (b : BlockRegs) :
    requireKey { s with block := b } { t with block := b } = { requireKey s t with block := b } := by
  unfold requireKey
  split_ifs <;> rfl

section

variable {len : BitVec 4} (hl : len ≠ 0#4) (s : State) (b : BlockRegs)

include hl

/-- `ABSORBP` reads BLOCK through its block integer alone. -/
theorem exec_absorbp_withBlock : exec (.absorbp len) { s with block := b } = .next
    { requireKey s (s.accumulate (absorbStep s.r s.h (b.partialInteger len.toNat))) with block := b } :=
  (if_neg hl).trans (congrArg _ (requireKey_withBlock s (s.accumulate _) b))

/-- `FINALP` reads BLOCK through its block integer alone. -/
theorem exec_finalp_withBlock : exec (.finalp len) { s with block := b } = .next
    { requireKey s (s.deliver (padAdd (canon (absorbStep s.r s.h (b.partialInteger len.toNat))) s.s))
      with block := b } :=
  (if_neg hl).trans (congrArg _ (requireKey_withBlock s (s.deliver _) b))

end

/-- Settles O35: the bytes below `len` determine the block integer, and the commands read that alone. -/
theorem bytesBeyondTheLengthAreIgnored : Obligations.BytesBeyondTheLengthAreIgnored := by
  intro s b c len hl hbytes
  have hint : b.partialInteger len.toNat = c.partialInteger len.toNat := by
    rw [BlockRegs.partialInteger, BlockRegs.partialInteger, (mod_eq_iff_bytes ..).2 hbytes]
  refine ⟨⟨_, exec_absorbp_withBlock hl s b, ?_⟩, ⟨_, exec_finalp_withBlock hl s b, ?_⟩⟩
  · rw [hint]
    exact exec_absorbp_withBlock hl s c
  · rw [hint]
    exact exec_finalp_withBlock hl s c

end Sys2Proof.Machine
end

section
/-! SUPPORT. The finalization adder in integers (`42_finalize.md` R171 to R174), and what `FINAL` and `FINALP` deliver
(R176 to R179). -/

namespace Sys2Proof.Machine

/-! ### The candidate, the canonical value and the pad addition -/

/-- Settles O40: the carry is the quotient of `V(x) + 5` by `2^130`, which is 1 exactly from the prime on. -/
theorem candidateSubtractsThePrime : Obligations.CandidateSubtractsThePrime := by
  intro x
  obtain ⟨hg, hsel⟩ := candidate_value x
  have hx := x.value_lt
  refine ⟨hg, ?_, ?_, ?_⟩ <;> omega

/-- A value of stored limbs is below `2p`, so one conditional subtraction reduces it (R171). -/
theorem LimbRegs.value_mod_modulus (x : LimbRegs) :
    x.value % Config.modulus = if Config.modulus ≤ x.value then x.value - Config.modulus else x.value := by
  have hx : x.value < 2 ^ 130 := x.value_lt
  split_ifs with h
  · rw [Nat.mod_eq_sub_mod h, Nat.mod_eq_of_lt (by simp only [Config.modulus]; omega)]
  · exact Nat.mod_eq_of_lt (Nat.lt_of_not_le h)

/-- Settles O41: the canonical value is the residue, and a residue of five limbs is one subtraction away. -/
theorem canonIsTheResidue : Obligations.CanonIsTheResidue := by
  intro x
  rw [canon_eq_mod]
  exact ⟨rfl, Nat.mod_lt _ (by decide), x.value_mod_modulus, by omega⟩

/-- One adder of the chain of R174, at word `i` with carry `c` in and `k` words left above: its low 32 bits are a word
of the sum, and its carry out joins the words above. -/
theorem add_mod_word_step (a b c i k : Nat) {e : Nat}
    (he : e = a / 2 ^ (32 * i) % 2 ^ 32 + b / 2 ^ (32 * i) % 2 ^ 32 + c) :
    (a / 2 ^ (32 * i) + b / 2 ^ (32 * i) + c) % 2 ^ (32 * (k + 1)) =
      e % 2 ^ 32 + (a / 2 ^ (32 * (i + 1)) + b / 2 ^ (32 * (i + 1)) + e / 2 ^ 32) % 2 ^ (32 * k) * 2 ^ 32 := by
  have hnext (v : Nat) : v / 2 ^ (32 * (i + 1)) = v / 2 ^ (32 * i) / 2 ^ 32 := by
    rw [Nat.div_div_eq_div_mul, ← pow_add, Nat.mul_succ]
  rw [hnext, hnext, Nat.mul_succ 32 k, Nat.add_comm (32 * k), pow_add, Nat.mod_mul]
  generalize a / 2 ^ (32 * i) = x, b / 2 ^ (32 * i) = y at he ⊢
  have hlow : (x + y + c) % 2 ^ 32 = e % 2 ^ 32 := by omega
  have hhigh : (x + y + c) / 2 ^ 32 = x / 2 ^ 32 + y / 2 ^ 32 + e / 2 ^ 32 := by omega
  rw [hlow, hhigh, Nat.mul_comm]

theorem padAdd_toNat (F : Nat) (s : Wide) : (padAdd F s).toNat = (F + s.toNat) % 2 ^ 128 := BitVec.toNat_ofNat ..

/-- Settles O42: the sum modulo `2^128` is peeled word by word, each adder's carry going into the next. -/
theorem padAdditionIsAChainOfWordAdders : Obligations.PadAdditionIsAChainOfWordAdders := by
  intro F s _ w m e0 e1 e2 e3
  have h0 : (F / 2 ^ 0 + s.toNat / 2 ^ 0) % 2 ^ 128 =
      e0 % 2 ^ 32 + (F / 2 ^ 32 + s.toNat / 2 ^ 32 + e0 / 2 ^ 32) % 2 ^ 96 * 2 ^ 32 :=
    add_mod_word_step F s.toNat 0 0 3 rfl
  have h1 : (F / 2 ^ 32 + s.toNat / 2 ^ 32 + e0 / 2 ^ 32) % 2 ^ 96 =
      e1 % 2 ^ 32 + (F / 2 ^ 64 + s.toNat / 2 ^ 64 + e1 / 2 ^ 32) % 2 ^ 64 * 2 ^ 32 :=
    add_mod_word_step F s.toNat (e0 / 2 ^ 32) 1 2 rfl
  have h2 : (F / 2 ^ 64 + s.toNat / 2 ^ 64 + e1 / 2 ^ 32) % 2 ^ 64 =
      e2 % 2 ^ 32 + (F / 2 ^ 96 + s.toNat / 2 ^ 96 + e2 / 2 ^ 32) % 2 ^ 32 * 2 ^ 32 :=
    add_mod_word_step F s.toNat (e1 / 2 ^ 32) 2 1 rfl
  have h3 : (F / 2 ^ 96 + s.toNat / 2 ^ 96 + e2 / 2 ^ 32) % 2 ^ 32 = e3 % 2 ^ 32 :=
    (add_mod_word_step F s.toNat (e2 / 2 ^ 32) 3 0 rfl).trans <| by
      rw [pow_zero, Nat.mod_one, Nat.zero_mul, Nat.add_zero]
  refine ⟨padAdd_toNat F s, ?_⟩
  rw [pow_zero, Nat.div_one, Nat.div_one] at h0
  rw [padAdd_toNat, h0, h1, h2, h3]
  ring

/-! ### FINAL and FINALP -/

/-- The pad addition to a canonical value, by the value of the limbs. -/
theorem padAdd_canon (x : LimbRegs) (s : Wide) :
    padAdd (canon x) s = BitVec.ofNat 128 (x.value % Config.modulus + s.toNat) := by
  rw [canon_eq_mod, padAdd]

/-- Settles O43: a state without a key is refused, one with a key gets the pad addition to its residue. -/
theorem finalDeliversTheTag : Obligations.FinalDeliversTheTag := by
  refine ⟨decode_eq_ok_iff.2 ⟨rfl, rfl⟩, fun s => ⟨exec_unkeyed rfl (by simp), fun hp => ?_⟩⟩
  rw [exec_final_live hp, padAdd_canon]
  rfl

/-- Settles O44: FINAL's tag, of the copy that absorbed the block integer. -/
theorem finalpDeliversTheTagOfACopy : Obligations.FinalpDeliversTheTagOfACopy := by
  intro len hl
  have hw : (Instr.finalp len).WellFormed := finalp_wellFormed.2 hl
  refine ⟨decode_eq_ok_iff.2 ⟨hw, rfl⟩, fun s => ⟨exec_unkeyed hw (by simp), fun hp => ?_⟩⟩
  rw [exec_finalp_live hp hl, padAdd_canon]
  rfl

/-- Settles O45: the contract of one absorption at the copy. -/
theorem finalpTagInIntegers : Obligations.FinalpTagInIntegers := by
  intro s len hl hp
  refine ⟨_, exec_finalp_live hp hl, ?_⟩
  rw [State.deliver_tag, padAdd_toNat, canon_eq_mod,
    absorbStep_residue s.r s.h ((s.block.partialInteger_lt len).trans (by decide))]
  rfl

/-- Settles O46: both finalize the same absorbed accumulator. -/
theorem finalpAgreesWithAbsorbpThenFinal : Obligations.FinalpAgreesWithAbsorbpThenFinal := fun _ _ hl hp =>
  ⟨_, _, _, exec_absorbp_live hp hl, exec_final_live (by simp), exec_finalp_live hp hl, rfl⟩

/-- Settles O47: a finalization writes nothing it reads, so the second delivers the same tag again. -/
theorem finalizationIsRepeatable : Obligations.FinalizationIsRepeatable := fun _ hp =>
  ⟨⟨_, exec_final_live hp, exec_final_live (by simp), rfl, rfl, rfl⟩, fun _ hl =>
    ⟨_, exec_finalp_live hp hl, exec_finalp_live (by simp) hl, rfl, rfl, rfl⟩⟩

/-- Settles O48: the accumulator of a fresh key is 0, so its tag is the mask. -/
theorem emptyMessageTagIsTheMask : Obligations.EmptyMessageTagIsTheMask := fun s =>
  ⟨_, _, exec_init_accepts s, exec_final_zero (by simp) LimbRegs.value_zero, s.acceptKey_s_toNat, rfl, rfl⟩

end Sys2Proof.Machine
end

section
/-! SUPPORT. The host's accesses by size and offset (`43_host_access.md` R200, R201). -/

namespace Sys2Proof.Machine

/-- The malformed accesses that R200 and R201 list are not accepted. -/
theorem not_acceptedAccess {size off : Nat}
    (h : size ≠ 4 ∨ off % 4 ≠ 0 ∨ off = 0x08 ∨ off = 0x0C ∨ 0x50 ≤ off) : ¬ AcceptedAccess size off := by
  rw [AcceptedAccess]
  omega

/-- Settles O15: an access that is not accepted faults, and a read of each register answers its value. -/
theorem hostReadReturnsTheRegister : Obligations.HostReadReturnsTheRegister := by
  intro s size off rest hp returns
  refine ⟨fun h => (exactlyMalformedAccessesFault s _ rest hp).1 (not_acceptedAccess h), ?_⟩
  rintro rfl
  have answers {reg : Reg} (h : off = reg.offset) : returns (s.readReg reg) := step_rd (by rw [hp, h, rd])
  refine ⟨answers (reg := .cmd), fun h => ?_, fun i => answers (reg := .block i), fun i => answers (reg := .key i),
    fun i h => ?_⟩
  · rw [← status_toNat, BitVec.ofNat_toNat, BitVec.setWidth_eq]
    exact answers (reg := .status) h
  · have hv : s.tagWord i = BitVec.ofNat 32 (s.tag.toNat / 2 ^ (32 * i.val)) :=
      BitVec.eq_of_toNat_eq ((tagWord_toNat s i).trans (BitVec.toNat_ofNat ..).symm)
    rw [← hv]
    exact answers (reg := .tag i) h

/-- Settles O16: an access that is not accepted faults, and a write of each register has the effect of its row. -/
theorem hostWriteStoresCommandsOrIsIgnored : Obligations.HostWriteStoresCommandsOrIsIgnored := by
  intro s size off v rest hp after
  refine ⟨fun h => (exactlyMalformedAccessesFault s _ rest hp).1 (not_acceptedAccess h), ?_⟩
  rintro rfl
  have names {reg : Reg} (h : off = reg.offset) : s.port = wr reg v :: rest := by rw [hp, h, wr]
  refine ⟨fun h => ⟨fun i => step_command (names (reg := .cmd) h), fun x => step_illegal (names (reg := .cmd) h)⟩,
    fun h => step_wr_status (names (reg := .status) h), fun i h => ?_, fun i h => ?_,
    fun i h => step_wr_tag (names (reg := .tag i) h)⟩
  · exact ⟨_, step_wr_block (names (reg := .block i) h), fun j => s.block.get_set i j v⟩
  · exact ⟨_, step_wr_key (names (reg := .key i) h), fun j => s.key.get_set i j v⟩

end Sys2Proof.Machine
end

section
/-! SUPPORT. The engine while it computes a tag (`43_host_access.md` R202): what INIT begins, what an absorption
adds, and the tag a finalization then delivers. -/

namespace Sys2Proof.Machine

/-- The engine holds the multiplier `R` and the mask `S`, and has absorbed the block integers `ns` under them. -/
structure State.HasAbsorbed (R S : Nat) (ns : List Nat) (s : State) : Prop where
  keyed : s.phase ≠ .uninitialized
  multiplier : s.r.value = R
  mask : s.s.toNat = S
  residue : s.h.value % Config.modulus = polyEval R ns % Config.modulus

/-- A fresh key has absorbed nothing (`40_init.md` R110). -/
theorem State.acceptKey_hasAbsorbed (s : State) :
    s.acceptKey.HasAbsorbed (s.key.rHalf &&& Config.clampMask.toNat) s.key.sHalf [] :=
  ⟨by simp, s.acceptKey_r_value_eq_and, s.acceptKey_s_toNat, congrArg (· % Config.modulus) LimbRegs.value_zero⟩

namespace State.HasAbsorbed

variable {R S n : Nat} {ns : List Nat} {s : State}

/-- One absorption adds one block integer (`41_absorb.md` R134). -/
theorem accumulate (h : s.HasAbsorbed R S ns) (hn : n < 2 ^ 129) :
    (s.accumulate (absorbStep s.r s.h n)).HasAbsorbed R S (ns ++ [n]) := by
  refine ⟨by simp, h.multiplier, h.mask, ?_⟩
  rw [State.accumulate_h, absorbStep_residue s.r s.h hn, polyEval_concat, h.multiplier, Nat.mul_mod, Nat.add_mod,
    h.residue, ← Nat.add_mod, ← Nat.mul_mod]

/-- A finalization keeps what was absorbed (`42_finalize.md` R178). -/
theorem deliver (h : s.HasAbsorbed R S ns) (T : Wide) : (s.deliver T).HasAbsorbed R S ns :=
  ⟨by simp, h.multiplier, h.mask, h.residue⟩

/-- What was absorbed does not lie in BLOCK. -/
theorem withBlock (h : s.HasAbsorbed R S ns) (b : BlockRegs) : { s with block := b }.HasAbsorbed R S ns :=
  ⟨h.keyed, h.multiplier, h.mask, h.residue⟩

theorem withReply (h : s.HasAbsorbed R S ns) (a : HostReply) : (s.answer a).HasAbsorbed R S ns :=
  ⟨h.keyed, h.multiplier, h.mask, h.residue⟩

/-- The tag of the accumulator is that of the integers absorbed (R202). -/
theorem padAdd_canon_toNat (h : s.HasAbsorbed R S ns) : (padAdd (canon s.h) s.s).toNat = referenceTag R S ns := by
  rw [padAdd_toNat, canon_eq_mod, h.residue, h.mask, referenceTag]

/-- `ABSORB` absorbs the full block's integer. -/
theorem absorb (h : s.HasAbsorbed R S ns) :
    ∃ t, exec .absorb s = .next t ∧ t.HasAbsorbed R S (ns ++ [s.block.fullInteger]) :=
  ⟨_, exec_absorb_live h.keyed, h.accumulate s.block.fullInteger_lt⟩

/-- A list of blocks is absorbed one after another. -/
theorem absorbBlocks (h : s.HasAbsorbed R S ns) (bs : List BlockRegs) :
    ∃ t, absorbBlocks bs s = .next t ∧ t.HasAbsorbed R S (ns ++ bs.map BlockRegs.fullInteger) := by
  induction bs generalizing s ns with
  | nil => exact ⟨s, rfl, by simpa using h⟩
  | cons b bs ih =>
    obtain ⟨t, ht, hb⟩ := (h.withBlock b).absorb
    obtain ⟨u, hu, hbs⟩ := ih hb
    refine ⟨u, ?_, by simpa using hbs⟩
    rw [Machine.absorbBlocks, ht]
    exact hu

/-- `FINAL` delivers the tag of what was absorbed (`42_finalize.md` R176). -/
theorem final (h : s.HasAbsorbed R S ns) :
    ∃ T, exec .final s = .next (s.deliver T) ∧ T.toNat = referenceTag R S ns :=
  ⟨_, exec_final_live h.keyed, h.padAdd_canon_toNat⟩

/-- `FINALP` delivers the tag of what was absorbed and of the partial block (R177). -/
theorem finalp (h : s.HasAbsorbed R S ns) {len : BitVec 4} (hl : len ≠ 0#4) :
    ∃ T, exec (.finalp len) s = .next (s.deliver T) ∧
      T.toNat = referenceTag R S (ns ++ [s.block.partialInteger len.toNat]) :=
  have hn : s.block.partialInteger len.toNat < 2 ^ 129 := (s.block.partialInteger_lt len).trans (by decide)
  ⟨_, exec_finalp_live h.keyed hl, (h.accumulate hn).padAdd_canon_toNat⟩

end State.HasAbsorbed

/-- Settles O38: a fresh key absorbs the blocks, and each finalization delivers the tag of what was absorbed. -/
theorem commandsComputeThePoly1305Tag : Obligations.CommandsComputeThePoly1305Tag := by
  intro s bs
  obtain ⟨u, hu, h⟩ := s.acceptKey_hasAbsorbed.absorbBlocks bs
  obtain ⟨T, hT, tag⟩ := h.final
  refine ⟨_, u, _, exec_init_accepts s, hu, hT, tag, fun b len hl => ?_⟩
  obtain ⟨T', hT', tag'⟩ := (h.withBlock b).finalp hl
  exact ⟨_, hT', tag'⟩

end Sys2Proof.Machine
end

section
/-! SUPPORT. What the adapter sends for a message (`43_host_access.md` R203 to R206): the canonical program, however
the message is split into writes. -/

namespace Sys2Proof.Machine

/-- Writing two chunks sends what writing them joined sends, and leaves the same buffer (R205). -/
theorem adapterWrite_append (buf a b : List Byte) :
    adapterWrite buf (a ++ b) = ((adapterWrite buf a).1 ++ (adapterWrite (adapterWrite buf a).2 b).1,
      (adapterWrite (adapterWrite buf a).2 b).2) := by
  induction a generalizing buf with
  | nil => rfl
  | cons x a ih => simp [adapterWrite, ih]

/-- Any chunks send what one write of the chunks joined sends. -/
theorem adapterCalls_writes (buf : List Byte) (chunks : List (List Byte)) :
    adapterCalls buf (chunks.map .write) = adapterWrite buf chunks.flatten := by
  induction chunks generalizing buf with
  | nil => rfl
  | cons c chunks ih => simp [adapterCalls, AdapterCall.send, adapterWrite_append, ih]

/-- The lines of a first block, and then those of what follows it (R203). -/
theorem absorbLines_block_append {a b : List Byte} (ha : a.length = 16) (q : Nat) :
    absorbLines (a ++ b) (q + 1) = ldblk a ++ [issue .absorb] ++ absorbLines b q := by
  have hd (i : Nat) : (a ++ b).drop (16 * (i + 1)) = b.drop (16 * i) := by
    rw [show 16 * (i + 1) = a.length + 16 * i by omega, List.drop_length_add_append]
  have h0 : (a ++ b).take 16 = a := List.take_left' ha
  simp [absorbLines, List.range_succ_eq_map, List.flatMap_map, hd, h0]

/-- One write into an empty buffer sends every full block and buffers the bytes left (R203, R205). -/
theorem adapterWrite_nil (msg : List Byte) :
    adapterWrite [] msg = (absorbLines msg (msg.length / 16), msg.drop (16 * (msg.length / 16))) := by
  induction hq : msg.length / 16 generalizing msg with
  | zero => exact adapterWrite_short (by simp; omega)
  | succ q ih =>
    obtain ⟨a, b, rfl, ha⟩ : ∃ a b, msg = a ++ b ∧ a.length = 16 :=
      ⟨msg.take 16, msg.drop 16, (List.take_append_drop 16 msg).symm, by rw [List.length_take]; omega⟩
    have hb : b.length / 16 = q := by rw [List.length_append] at hq; omega
    rw [adapterWrite_append, adapterWrite_completes (by simp) (by simpa using ha), ih b hb,
      absorbLines_block_append ha, show 16 * (q + 1) = a.length + 16 * q by omega, List.drop_length_add_append]
    rfl

/-- What `Sum` sends before it reads the tag (R206). -/
def finalization (buf : List Byte) : List HostEvent :=
  if buf = [] then [issue .final] else ldblk buf ++ [issue (.finalp (BitVec.ofNat 4 buf.length))]

theorem adapterSum_eq (buf : List Byte) : adapterSum buf = finalization buf ++ rdtag := by
  unfold adapterSum finalization
  split_ifs <;> simp

/-- `New` declares the length of a 32-byte key as it is (R204). -/
theorem declaredLength_eq {key : List Byte} (hk : key.length = 32) : BitVec.ofNat 8 (min key.length 255) = 32#8 := by
  rw [hk]
  rfl

/-- Settles O57: the chunks are one write of the message, which leaves the bytes after its full blocks. -/
theorem writesSendTheCanonicalProgram : Obligations.WritesSendTheCanonicalProgram := by
  intro key chunks hk
  generalize hm : chunks.flatten = msg
  have hu : msg.length % 16 = (msg.drop (16 * (msg.length / 16))).length := by
    rw [List.length_drop]
    omega
  rw [adapterSession, adapterCalls_writes, hm, adapterWrite_nil, adapterNew, declaredLength_eq hk, adapterSum_eq,
    finalization, canonicalProgram]
  simp only [hu, List.length_eq_zero_iff, List.append_assoc]

end Sys2Proof.Machine
end

section
/-! SUPPORT. A session of the adapter at the engine (`43_host_access.md` R203 to R206, R209): what `New`, each call and
each `Sum` do to it, and what the reads of TAG answer. -/

namespace Sys2Proof.Machine

/-- A run over events at the head of the port. -/
theorem Performs.run {es rest : List HostEvent} {s t : State} (h : Performs es s t) (hp : s.port = es ++ rest) :
    Sys2Proof.core.run es.length s = .next { t with port := rest } := by
  have hr := h rest
  rwa [← hp] at hr

/-- A mnemonic line of a well-formed instruction runs it. -/
theorem performs_command {i : Instr} (hw : i.WellFormed) {s t : State} (h : exec i (s.answer .accepted) = .next t) :
    Performs [issue i] s t :=
  performs_issue (decode_eq_ok_iff.2 ⟨hw, rfl⟩) h

/-! ### Reads -/

theorem readReg_answer (a : HostReply) (s : State) (reg : Reg) : (s.answer a).readReg reg = s.readReg reg :=
  readReg_congr rfl rfl rfl rfl reg

/-- Of a row of reads the last one's answer stays; nothing else changes. -/
theorem performs_reads (regs : List Reg) (reg : Reg) (s : State) :
    Performs ((regs ++ [reg]).map rd) s (s.answer (.value (s.readReg reg))) := by
  induction regs generalizing s with
  | nil => exact performs_read reg s
  | cons first regs ih =>
    have h := (performs_read first s).append (ih _)
    rwa [readReg_answer] at h

/-- The first reads of `RDTAG`, up to word `i`, answer that word last. -/
theorem performs_rdtag_take (i : Fin 4) (s : State) :
    Performs (rdtag.take (i.val + 1)) s (s.answer (.value (s.tagWord i))) := by
  have split : rdtag.take (i.val + 1) = (((List.finRange 4).take i.val).map Reg.tag ++ [Reg.tag i]).map rd := by
    revert i
    decide
  rw [split]
  exact performs_reads _ _ s

/-- The words of a tag are those of its bytes (`20_memory.md` R54). -/
theorem tagWord_eq_byteWord {s : State} {b : List Byte} (hb : b.length = 16) (h : s.tag.toNat = leValue b)
    (i : Fin 4) : s.tagWord i = byteWord b i.val := by
  have hget : (blockOf b).get i = byteWord b i.val := by fin_cases i <;> rfl
  apply BitVec.eq_of_toNat_eq
  rw [tagWord_toNat, h, ← blockOf_value hb.le, BlockRegs.value_word, hget]

/-! ### `New` -/

/-- `New` stages the key and issues one INIT. -/
theorem performs_adapterNew (key : List Byte) (s : State) {t : State}
    (h : exec (.init (BitVec.ofNat 8 (min key.length 255))) { s with key := keyOf key, reply := .accepted } = .next t) :
    Performs (adapterNew key) s t :=
  (performs_ldkey key s).append (performs_command rfl h)

/-- Settles O58: the length declared is capped at 255, so it is not 32 modulo 256 either. -/
theorem newWithAnotherLengthIsRefused : Obligations.NewWithAnotherLengthIsRefused := by
  intro s key rest hk hp
  have hlen : BitVec.ofNat 8 (min key.length 255) ≠ 32#8 := by
    rw [ne_eq, ← BitVec.toNat_inj, BitVec.toNat_ofNat, BitVec.toNat_ofNat]
    omega
  exact ⟨_, (performs_adapterNew key s (exec_init_refuses hlen _)).run hp, rfl, rfl, LimbRegs.value_zero, rfl,
    LimbRegs.value_zero, rfl, rfl, rfl⟩

/-! ### The calls -/

/-- The multiplier of a key (R202). -/
def multiplierOf (key : List Byte) : Nat := (BitVec.ofNat 128 (leValue (key.take 16)) &&& Config.clampMask).toNat

/-- The mask of a key (R202). -/
def maskOf (key : List Byte) : Nat := leValue ((key.drop 16).take 16)

/-- The key that `LDKEY` stages holds them. -/
theorem keyOf_multiplier_mask {key : List Byte} (hk : key.length = 32) :
    (keyOf key).rHalf &&& Config.clampMask.toNat = multiplierOf key ∧ (keyOf key).sHalf = maskOf key := by
  obtain ⟨hr, hs⟩ := keyOf_halves hk
  constructor
  · rw [multiplierOf, ← hr, BitVec.toNat_and, BitVec.toNat_ofNat (keyOf key).rHalf,
      Nat.mod_eq_of_lt (keyOf key).rHalf_lt]
  · rw [maskOf, hs, List.take_of_length_le (by rw [List.length_drop]; omega)]

/-- Of the message `msg` the adapter holds the last bytes in its buffer `buf` of 0 to 15, and the engine has absorbed
the full blocks before them. -/
structure InSession (key msg buf : List Byte) (s : State) : Prop where
  buffered : buf.length < 16
  absorbed : ∃ blocks, blocks.length % 16 = 0 ∧ msg = blocks ++ buf ∧
    s.HasAbsorbed (multiplierOf key) (maskOf key) (messageIntegers blocks)

section

variable {key msg buf : List Byte} {s : State}

theorem InSession.withReply (h : InSession key msg buf s) (a : HostReply) : InSession key msg buf (s.answer a) := by
  obtain ⟨hbuf, blocks, hlen, hmsg, habs⟩ := h
  exact ⟨hbuf, blocks, hlen, hmsg, habs.withReply a⟩

/-- `New` begins a session with the empty message (R204). -/
theorem performs_adapterNew_inSession (hk : key.length = 32) (s : State) :
    ∃ t, Performs (adapterNew key) s t ∧ InSession key [] [] t := by
  obtain ⟨hmul, hmask⟩ := keyOf_multiplier_mask hk
  refine ⟨_, performs_adapterNew key s (declaredLength_eq hk ▸ exec_init_accepts _), by simp, [], rfl, rfl, ?_⟩
  rw [← hmul, ← hmask]
  exact State.acceptKey_hasAbsorbed { s with key := keyOf key, reply := .accepted }

/-- `LDBLK` and `ABSORB` absorb the integer of a full block. -/
theorem performs_absorb {R S : Nat} {ns : List Nat} (h : s.HasAbsorbed R S ns) {b : List Byte} (hb : b.length = 16) :
    ∃ t, Performs (ldblk b ++ [issue .absorb]) s t ∧ t.HasAbsorbed R S (ns ++ messageIntegers b) := by
  obtain ⟨t, ht, habs⟩ := ((h.withBlock (blockOf b)).withReply .accepted).absorb
  refine ⟨t, (performs_ldblk b s).append (performs_command rfl ht), ?_⟩
  rw [messageIntegers_block hb, ← blockOf_value hb.le]
  exact habs

/-- A byte written joins the buffer, or completes a block that is absorbed (R205). -/
theorem performs_adapterPush (h : InSession key msg buf s) (b : Byte) :
    ∃ t, Performs (adapterPush buf b).1 s t ∧ InSession key (msg ++ [b]) (adapterPush buf b).2 t := by
  obtain ⟨hbuf, blocks, hlen, rfl, habs⟩ := h
  rw [adapterPush, List.append_assoc]
  split_ifs with hfull
  · obtain ⟨t, ht, hnext⟩ := performs_absorb habs hfull
    refine ⟨t, ht, by simp, blocks ++ (buf ++ [b]), ?_, (List.append_nil _).symm, ?_⟩
    · rw [List.length_append, hfull, Nat.add_mod_right, hlen]
    · rwa [messageIntegers_append hlen]
  · refine ⟨s, .nil s, ?_, blocks, hlen, rfl, habs⟩
    have hne : (buf ++ [b]).length ≠ 16 := hfull
    rw [List.length_append, List.length_singleton] at hne ⊢
    omega

/-- A write joins its bytes to the message (R205). -/
theorem performs_adapterWrite (h : InSession key msg buf s) (bs : List Byte) :
    ∃ t, Performs (adapterWrite buf bs).1 s t ∧ InSession key (msg ++ bs) (adapterWrite buf bs).2 t := by
  induction bs generalizing msg buf s with
  | nil => exact ⟨s, .nil s, by rwa [List.append_nil]⟩
  | cons b bs ih =>
    obtain ⟨t, ht, hb⟩ := performs_adapterPush h b
    obtain ⟨u, hu, hbs⟩ := ih hb
    exact ⟨u, ht.append hu, by rwa [List.append_assoc] at hbs⟩

/-- The bytes of Poly1305 hold its integer (R202). -/
theorem leValue_poly1305 (key msg : List Byte) :
    leValue (poly1305 key msg) = referenceTag (multiplierOf key) (maskOf key) (messageIntegers msg) := by
  rw [poly1305, leValue_leBytes, referenceTag, Nat.mod_mod]
  rfl

/-- The commands of `Sum` deliver Poly1305 of the message so far, and the session goes on from there (R206). -/
theorem performs_finalization (h : InSession key msg buf s) :
    ∃ t, Performs (finalization buf) s t ∧ InSession key msg buf t ∧ t.tag.toNat = leValue (poly1305 key msg) ∧
      t.phase = .finalized ∧ t.err = .ok := by
  obtain ⟨hbuf, blocks, hlen, rfl, habs⟩ := h
  rw [leValue_poly1305, messageIntegers_append hlen, finalization]
  split_ifs with hnil
  · subst hnil
    obtain ⟨T, hT, tag⟩ := (habs.withReply .accepted).final
    refine ⟨_, performs_command rfl hT, ⟨hbuf, blocks, hlen, rfl, (habs.withReply _).deliver T⟩, ?_, rfl, rfl⟩
    rwa [messageIntegers_nil, List.append_nil]
  · have hpos : 0 < buf.length := List.length_pos_iff.2 hnil
    have hmod : (BitVec.ofNat 4 buf.length).toNat = buf.length := by
      rw [BitVec.toNat_ofNat, Nat.mod_eq_of_lt hbuf]
    have hne : BitVec.ofNat 4 buf.length ≠ 0#4 := fun h0 => by
      rw [h0] at hmod
      exact hpos.ne hmod
    have staged := (habs.withBlock (blockOf buf)).withReply .accepted
    obtain ⟨T, hT, tag⟩ := staged.finalp hne
    refine ⟨_, (performs_ldblk buf s).append (performs_command (finalp_wellFormed.2 hne) hT),
      ⟨hbuf, blocks, hlen, rfl, staged.deliver T⟩, ?_, rfl, rfl⟩
    have hint : (blockOf buf).partialInteger buf.length = leValue buf + 2 ^ (8 * buf.length) := by
      rw [BlockRegs.partialInteger, blockOf_value hbuf.le, Nat.mod_eq_of_lt (leValue_lt buf)]
    rw [messageIntegers_short hbuf hnil, ← hint, ← hmod]
    exact tag

/-- A call joins its bytes to the message; `Sum` joins none (R205, R206). -/
theorem performs_send (h : InSession key msg buf s) (c : AdapterCall) :
    ∃ t, Performs (c.send buf).1 s t ∧ InSession key (msg ++ c.bytes) (c.send buf).2 t := by
  cases c with
  | write bs => exact performs_adapterWrite h bs
  | sum =>
    obtain ⟨t, ht, hnext, -⟩ := performs_finalization h
    rw [AdapterCall.send, adapterSum_eq, AdapterCall.bytes, List.append_nil]
    exact ⟨_, ht.append (performs_rdtag_take 3 t), hnext.withReply _⟩

/-- Calls join their bytes to the message in order. -/
theorem performs_adapterCalls (h : InSession key msg buf s) (cs : List AdapterCall) :
    ∃ t, Performs (adapterCalls buf cs).1 s t ∧
      InSession key (msg ++ cs.flatMap AdapterCall.bytes) (adapterCalls buf cs).2 t := by
  induction cs generalizing msg buf s with
  | nil => exact ⟨s, .nil s, by rwa [List.flatMap_nil, List.append_nil]⟩
  | cons c cs ih =>
    obtain ⟨t, ht, hc⟩ := performs_send h c
    obtain ⟨u, hu, hcs⟩ := ih hc
    exact ⟨u, ht.append hu, by rwa [List.append_assoc] at hcs⟩

end

/-- What a session sends before the last reads of TAG. -/
def untilTag (key : List Byte) (calls : List AdapterCall) : List HostEvent :=
  adapterNew key ++ (adapterCalls [] calls).1 ++ finalization (adapterCalls [] calls).2

theorem adapterSession_eq (key : List Byte) (calls : List AdapterCall) :
    adapterSession key calls = untilTag key calls ++ rdtag := by
  rw [adapterSession, adapterSum_eq, untilTag, List.append_assoc _ _ rdtag]

/-- Before the last reads, TAG holds Poly1305 of all the bytes written. -/
theorem performs_untilTag {key : List Byte} (hk : key.length = 32) (calls : List AdapterCall) (s : State) :
    ∃ t, Performs (untilTag key calls) s t ∧
      t.tag.toNat = leValue (poly1305 key (calls.flatMap AdapterCall.bytes)) ∧ t.phase = .finalized ∧ t.err = .ok := by
  obtain ⟨t, ht, hnew⟩ := performs_adapterNew_inSession hk s
  obtain ⟨u, hu, hcalls⟩ := performs_adapterCalls hnew calls
  obtain ⟨v, hv, -, htag⟩ := performs_finalization hcalls
  exact ⟨v, (ht.append hu).append hv, htag⟩

/-- A run of a session that ends with the read of word `i` of TAG. -/
theorem run_adapterSession_read {key : List Byte} {calls : List AdapterCall} {rest : List HostEvent} {s t : State}
    (hp : s.port = adapterSession key calls ++ rest) (ht : Performs (untilTag key calls) s t) (i : Fin 4) :
    Sys2Proof.core.run ((adapterSession key calls).length - 3 + i.val) s =
      .next { t.answer (.value (t.tagWord i)) with port := rdtag.drop (i.val + 1) ++ rest } := by
  have hport : s.port = (untilTag key calls ++ rdtag.take (i.val + 1)) ++ (rdtag.drop (i.val + 1) ++ rest) := by
    rw [hp, adapterSession_eq, List.append_assoc, List.append_assoc, ← List.append_assoc (rdtag.take _),
      List.take_append_drop]
  have hsteps : (adapterSession key calls).length - 3 + i.val =
      (untilTag key calls ++ rdtag.take (i.val + 1)).length := by
    have hread : rdtag.length = 4 := rfl
    rw [adapterSession_eq, List.length_append, List.length_append, List.length_take, hread]
    omega
  rw [hsteps]
  exact (ht.append (performs_rdtag_take i t)).run hport

/-- Settles O56: the commands leave the tag in TAG, and each read of `RDTAG` ends a run that answers its word. -/
theorem adapterSessionDeliversPoly1305 : Obligations.AdapterSessionDeliversPoly1305 := by
  intro s key calls rest hk hp tag steps
  obtain ⟨t, ht, htag, hphase, herr⟩ := performs_untilTag hk calls s
  have hlen : tag.length = 16 := leBytes_length ..
  have hall : Performs (adapterSession key calls) s (t.answer (.value (t.tagWord 3))) :=
    adapterSession_eq key calls ▸ ht.append (performs_rdtag_take 3 t)
  refine ⟨⟨_, hall.run hp, htag, hphase, herr, rfl⟩, fun i => ⟨_, run_adapterSession_read hp ht i, ?_⟩⟩
  rw [State.answer_reply, tagWord_eq_byteWord hlen htag]
  rfl

end Sys2Proof.Machine
end

section
/-! SUPPORT. A command word by its fields: its instruction, its response and its whole effect (`60_exceptions.md` R230 to
R239). -/

namespace Sys2Proof

open Sys2Proof.Machine

/-- The instruction that a word spells, by `OP`, `FP` and `LEN` as integers: the rows of R83. -/
theorem Spells.row {w : Word} {i : Instr} (h : Spells w i) :
    let OP := w.toNat % 2 ^ 4
    let FP := w.toNat / 2 ^ 4 % 2
    let LEN := w.toNat / 2 ^ 8 % 2 ^ 8
    (OP = 1 → ∃ klen, i = .init klen ∧ LEN = klen.toNat) ∧ (OP ≠ 1 → ∀ klen, i ≠ .init klen) ∧
      (OP = 2 → FP = 0 → i = .absorb) ∧ (OP = 2 → FP = 1 → ∃ len, i = .absorbp len ∧ LEN = len.toNat) ∧
      (OP = 3 → FP = 0 → i = .final) ∧ (OP = 3 → FP = 1 → ∃ len, i = .finalp len ∧ LEN = len.toNat) := by
  obtain ⟨hf, -, -⟩ := h
  rw [← fieldOP_toNat, ← fieldFP_toNat, ← fieldLEN_toNat]
  cases i with
  | init | absorb | final =>
    obtain ⟨hop, hfp, hlen⟩ := by simpa only [Laws.encodedFields, Prod.mk.injEq] using hf
    simp [hop, hfp, hlen]
  | absorbp len | finalp len =>
    obtain ⟨hop, hfp, hlen⟩ := by simpa only [Laws.encodedFields, Prod.mk.injEq] using hf
    have hle : (fieldLEN w).toNat = len.toNat := hlen ▸ BitVec.toNat_setWidth_of_le (by decide)
    simp [hop, hfp, hle]

/-- A legal word has one of the three opcodes (R86 (a)). -/
theorem op_of_not_listedIllegal {w : Nat} (h : ¬ ListedIllegal w) : w % 2 ^ 4 = 1 ∨ w % 2 ^ 4 = 2 ∨ w % 2 ^ 4 = 3 := by
  by_contra hop
  exact h (.inl (by simpa only [not_or] using hop))

end Sys2Proof

namespace Sys2Proof.Machine

/-- Settles O51: the responses of R39's table; the last clause by the opcode of the word. -/
theorem responseFollowsTheOrderOfChecks : Obligations.ResponseFollowsTheOrderOfChecks := by
  intro s w rest hp
  obtain ⟨t, ht, hillegal, hlegal⟩ := phaseTransitionTable s w rest hp
  refine ⟨t, ht, fun hl => (hillegal hl).2, fun hn hop hlen => ?_, fun hn hop hkey => ?_, fun hn hlen hkey => ?_⟩
  all_goals obtain ⟨haccept, hrefuse, hunkeyed, habsorb, hfinal⟩ := hlegal hn
  · exact (hrefuse hop hlen).2
  · exact (hunkeyed hop hkey).2
  · obtain hop | hop | hop := op_of_not_listedIllegal hn
    · exact (haccept hop (hlen hop)).2
    · exact (habsorb hop (hkey (by omega))).2
    · exact (hfinal hop (hkey (by omega))).2

/-- The whole state after an accepted INIT, from the halves of KEY (`40_init.md` R110 to R114). -/
theorem State.acceptKey_eq (s : State) :
    s.acceptKey =
      { s with r := (limbs (s.key.rHalf &&& 0x0ffffffc0ffffffc0ffffffc0fffffff)).toRegs
               s := BitVec.ofNat 128 s.key.sHalf, h := .zero, tag := 0#128, phase := .initialized, err := .ok } := by
  have hr : s.key.clamped.toNat = s.key.rHalf &&& 0x0ffffffc0ffffffc0ffffffc0fffffff :=
    s.acceptKey_r_value.symm.trans s.acceptKey_r_value_eq_and
  rw [State.acceptKey, hr]

/-- Settles O53: the word's row gives the instruction, and each instruction its line. -/
theorem completeCommandFunction : Obligations.CompleteCommandFunction := by
  intro s w rest hp u OP FP LEN n
  obtain ⟨hl, x, hd⟩ | ⟨i, hd, hw, hs⟩ := decode_cases w
  · exact ⟨fun _ => step_illegal hp hd, fun hn => absurd hl hn⟩
  have hstep : step s = exec i u := step_command hp hd
  have hfull : n 16 = u.block.fullInteger := (blockIntegersDoNotCollide.1 u.block).symm
  have hpartial {len : BitVec 4} (h : LEN = len.toNat) : n LEN = u.block.partialInteger len.toNat :=
    congrArg u.block.partialInteger h
  obtain ⟨hinit, hdata, habsorb, habsorbp, hfinal, hfinalp⟩ := hs.row
  rw [hstep]
  refine ⟨fun hl => absurd hl (hs.not_listed hw), fun _ => ⟨fun hop hlen => ?_, fun hop hlen => ?_,
    fun hop => exec_unkeyed (s := u) hw (hdata hop), fun hkey =>
      ⟨fun hop hfp => ?_, fun hop hfp => ?_, fun hop hfp => ?_, fun hop hfp => ?_⟩⟩⟩
  · obtain ⟨klen, rfl, hk⟩ := hinit hop
    exact exec_init_refuses (fun h => hlen (hk.trans (congrArg BitVec.toNat h))) u
  · obtain ⟨klen, rfl, hk⟩ := hinit hop
    obtain rfl : klen = 32#8 := BitVec.eq_of_toNat_eq (hk.symm.trans hlen)
    rw [exec_init_accepts, State.acceptKey_eq]
  · obtain rfl := habsorb hop hfp
    rw [hfull]
    exact exec_absorb_live (s := u) hkey
  · obtain ⟨len, rfl, hlen⟩ := habsorbp hop hfp
    rw [hpartial hlen]
    exact exec_absorbp_live (s := u) hkey (absorbp_wellFormed.1 hw)
  · obtain rfl := hfinal hop hfp
    exact exec_final_live (s := u) hkey
  · obtain ⟨len, rfl, hlen⟩ := hfinalp hop hfp
    rw [hpartial hlen]
    exact exec_finalp_live (s := u) hkey (finalp_wellFormed.1 hw)

/-- Settles O49: the refusal shared by the data commands. -/
theorem dataCommandsNeedAKey : Obligations.DataCommandsNeedAKey := fun _ _ => exec_unkeyed

/-- Settles O50: an absorption and a finalization write `h` or `tag`, the phase and the response alone. -/
theorem liveDataCommandsSucceed : Obligations.LiveDataCommandsSucceed := by
  intro s i hw hi hp
  cases i with
  | init klen => exact absurd rfl (hi klen)
  | absorb => exact ⟨_, exec_absorb_live hp, by simp⟩
  | absorbp len => exact ⟨_, exec_absorbp_live hp (absorbp_wellFormed.1 hw), by simp⟩
  | final => exact ⟨_, exec_final_live hp, by simp⟩
  | finalp len => exact ⟨_, exec_finalp_live hp (finalp_wellFormed.1 hw), by simp⟩

end Sys2Proof.Machine
end

section
/-! SUPPORT. The reset input, and a host whose pending events are all accepted (`70_reset_and_hazards.md` R260,
R282). -/

namespace Sys2Proof.Machine

/-- An accepted event at the head of the port never stops the step, which takes that event alone from the port
(`20_memory.md` R55, R59). -/
theorem step_accepted_head {e : HostEvent} {rest : List HostEvent} {s : State} (hp : s.port = e :: rest)
    (h : e.Accepted) : ∃ t, step s = .next t ∧ t.port = rest := by
  obtain ⟨t, ht⟩ := step_accepted h s
  have hs : step s = .next { t with port := rest } := by rw [← ht rest, ← hp]
  exact ⟨_, hs, rfl⟩

/-- Settles O18: an idle step keeps the port, any other takes its accepted head and leaves the tail. -/
theorem acceptedAccessesNeverStop : Obligations.AcceptedAccessesNeverStop := by
  intro s h
  cases hp : s.port with
  | nil => exact ⟨s, step_idle hp, h⟩
  | cons e rest =>
    rw [State.SafePort, hp, List.forall_mem_cons] at h
    obtain ⟨he, hrest⟩ := h
    obtain ⟨t, ht, htp⟩ := step_accepted_head hp he
    have safe : t.SafePort := fun a ha => hrest a (htp ▸ ha)
    exact ⟨t, ht, safe⟩

/-- Settles O10: the step answers the reset state behind the events still pending. -/
theorem resetInputClearsTheEngine : Obligations.ResetInputClearsTheEngine := by
  intro s rest hp
  obtain ⟨-, -, -, -, -, -, hkey, hblock, -⟩ := resetStateIsAllZero
  exact ⟨{ State.reset with port := rest }, step_reset hp, rfl, rfl, rfl, LimbRegs.value_zero, rfl,
    LimbRegs.value_zero, rfl, hkey, hblock⟩

end Sys2Proof.Machine
end

section
/-! SUPPORT. An engine with nothing pending, and a term that stands for no legal word (log entries 2 and 8). -/

namespace Sys2Proof.Machine

/-- Settles O9: the idle case of a step. -/
theorem idleEngineWaits : Obligations.IdleEngineWaits := fun _ => step_idle

/-- Only a partial block of length 0 is ill-formed, and its meaning tests the length before the key, so the
answer is that of an illegal word in every phase (`30_encoding.md` R86, `60_exceptions.md` R232). -/
theorem exec_illFormed {i : Instr} (hw : ¬ i.WellFormed) (s : State) : exec i s = .next (execIllegal s) := by
  cases i with
  | init => exact absurd rfl hw
  | absorb => exact absurd rfl hw
  | absorbp len => exact if_pos (absorbp_wellFormed.not_left.1 hw)
  | final => exact absurd rfl hw
  | finalp len => exact if_pos (finalp_wellFormed.not_left.1 hw)

/-- Settles O54: answering as an illegal word writes `err` alone. -/
theorem illFormedTermsAreIllegalCommands : Obligations.IllFormedTermsAreIllegalCommands :=
  fun s _ hw => exec_illFormed hw s

end Sys2Proof.Machine
end
